-- ==== Sys2Proof/Word.lean ====
section
/-! DEFINITION. The word types of the core and their plainest arithmetic (00_scope.md R7, R8). -/

namespace Sys2Proof

/-- A data register, a memory byte, an 8-bit immediate kk, a timer (R17, R25, R31, R61). -/
abbrev Byte := BitVec 8

/-- An instruction word, or a value of `pc` (R7, R20, R60). -/
abbrev Word := BitVec 16

/-- The 12-bit address field nnn (R61). -/
abbrev Addr12 := BitVec 12

/-- A 4-bit field that is no register identifier: the sprite byte count n, a fixed nibble (R61, R62). -/
abbrev Nibble := BitVec 4

/-- The address register's width, ADDR_REG_WIDTH = 64 (R6, R23, D9). -/
abbrev AddrReg := BitVec 64

/-- A register identifier 0x0..0xF (R17, R19). -/
abbrev RegId := Fin 16

/-- A key identifier 0x0..0xF (R26, D30). -/
abbrev KeyId := Fin 16

/-- `bool01(c)`: 1 if `c` holds and 0 otherwise (R8). -/
def bool01 (c : Bool) : Byte := if c then 1 else 0

end Sys2Proof
end

