-- ==== Sys2Proof/Syntax.lean ====
section
/-! DEFINITION. The 35 instructions of 30_encoding.md R64, one constructor per row of spec/opcode_table.json, in its order. -/

namespace Sys2Proof

/-- An instruction. The operands are the fields of R61: `nnn`, `x`, `y`, `kk` and `n`. -/
inductive Instr
  /-- 00E0 `CLS` (R112) -/
  | cls
  /-- 00EE `RET` (R101) -/
  | ret
  /-- 0nnn `SYS nnn` (R100) -/
  | sys (nnn : Addr12)
  /-- 1nnn `JP nnn` (R102) -/
  | jp (nnn : Addr12)
  /-- 2nnn `CALL nnn` (R103) -/
  | call (nnn : Addr12)
  /-- 3xkk `SE Vx, kk` (R104) -/
  | seImm (x : RegId) (kk : Byte)
  /-- 4xkk `SNE Vx, kk` (R105) -/
  | sneImm (x : RegId) (kk : Byte)
  /-- 5xy0 `SE Vx, Vy` (R106) -/
  | seReg (x y : RegId)
  /-- 6xkk `LD Vx, kk` (R87) -/
  | ldImm (x : RegId) (kk : Byte)
  /-- 7xkk `ADD Vx, kk` (R88) -/
  | addImm (x : RegId) (kk : Byte)
  /-- 8xy0 `LD Vx, Vy` (R89) -/
  | ldReg (x y : RegId)
  /-- 8xy1 `OR Vx, Vy` (R90) -/
  | orReg (x y : RegId)
  /-- 8xy2 `AND Vx, Vy` (R91) -/
  | andReg (x y : RegId)
  /-- 8xy3 `XOR Vx, Vy` (R92) -/
  | xorReg (x y : RegId)
  /-- 8xy4 `ADD Vx, Vy` (R93) -/
  | addReg (x y : RegId)
  /-- 8xy5 `SUB Vx, Vy` (R94) -/
  | subReg (x y : RegId)
  /-- 8xy6 `SHR Vx, Vy` (R95) -/
  | shrReg (x y : RegId)
  /-- 8xy7 `SUBN Vx, Vy` (R96) -/
  | subnReg (x y : RegId)
  /-- 8xyE `SHL Vx, Vy` (R97) -/
  | shlReg (x y : RegId)
  /-- 9xy0 `SNE Vx, Vy` (R107) -/
  | sneReg (x y : RegId)
  /-- Annn `LD I, nnn` (R121) -/
  | ldI (nnn : Addr12)
  /-- Bnnn `JP V0, nnn` (R108) -/
  | jpV0 (nnn : Addr12)
  /-- Cxkk `RND Vx, kk` (R98) -/
  | rnd (x : RegId) (kk : Byte)
  /-- Dxyn `DRW Vx, Vy, n` (R113) -/
  | drw (x y : RegId) (n : Nibble)
  /-- Ex9E `SKP Vx` (R115) -/
  | skp (x : RegId)
  /-- ExA1 `SKNP Vx` (R116) -/
  | sknp (x : RegId)
  /-- Fx07 `LD Vx, DT` (R117) -/
  | ldVxDT (x : RegId)
  /-- Fx0A `LD Vx, K` (R118) -/
  | ldVxK (x : RegId)
  /-- Fx15 `LD DT, Vx` (R119) -/
  | ldDTVx (x : RegId)
  /-- Fx18 `LD ST, Vx` (R120) -/
  | ldSTVx (x : RegId)
  /-- Fx1E `ADD I, Vx` (R122) -/
  | addI (x : RegId)
  /-- Fx29 `LD F, Vx` (R123) -/
  | ldF (x : RegId)
  /-- Fx33 `LD B, Vx` (R124) -/
  | ldB (x : RegId)
  /-- Fx55 `LD [I], Vx` (R125) -/
  | dumpRegs (x : RegId)
  /-- Fx65 `LD Vx, [I]` (R126) -/
  | loadRegs (x : RegId)
  deriving DecidableEq, Repr

end Sys2Proof
end

