-- ==== Sys2Proof/Decode.lean ====
section
/-! DEFINITION. The decoder of 30_encoding.md (R60 to R68), total on any bytes, and after it the encoder, written from the
formats of R62 and the patterns of R64. -/

namespace Sys2Proof

/-! ## Fields (R61) -/

/-- nnn = w[11:0]. -/
def nnnField (w : Word) : Addr12 := w.extractLsb' 0 12

/-- x = w[11:8]. -/
def xField (w : Word) : RegId := (w.extractLsb' 8 4).toFin

/-- y = w[7:4]. -/
def yField (w : Word) : RegId := (w.extractLsb' 4 4).toFin

/-- kk = w[7:0]. -/
def kkField (w : Word) : Byte := w.extractLsb' 0 8

/-- n = w[3:0]. -/
def nField (w : Word) : Nibble := w.extractLsb' 0 4

/-- The validating conversion from a number to a register identifier (R16, R19). It succeeds on every 4-bit value, so the
error InvalidDataRegister is never raised (R68). -/
def regOfNibble (v : Nat) : Option RegId := if h : v < 16 then some ⟨v, h⟩ else none

/-! ## The opcode table (R63, R64) -/

/-- A row of OPCODE_TABLE: it selects the words `w` with `w & mask == match`, and reads the operands from their fields. -/
structure OpcodeRow where
  mask : Word
  pattern : Word
  build : Word → Instr

/-- Does the row select the word (R63)? -/
def OpcodeRow.selects (r : OpcodeRow) (w : Word) : Bool := w &&& r.mask == r.pattern

/-- Rows 1 to 8 of R64. -/
def opcodeRows1 : List OpcodeRow :=
  [⟨0xFFFF, 0x00E0, fun _ => .cls⟩,
   ⟨0xFFFF, 0x00EE, fun _ => .ret⟩,
   ⟨0xF000, 0x0000, fun w => .sys (nnnField w)⟩,
   ⟨0xF000, 0x1000, fun w => .jp (nnnField w)⟩,
   ⟨0xF000, 0x2000, fun w => .call (nnnField w)⟩,
   ⟨0xF000, 0x3000, fun w => .seImm (xField w) (kkField w)⟩,
   ⟨0xF000, 0x4000, fun w => .sneImm (xField w) (kkField w)⟩,
   ⟨0xF00F, 0x5000, fun w => .seReg (xField w) (yField w)⟩]

/-- Rows 9 to 20 of R64. -/
def opcodeRows2 : List OpcodeRow :=
  [⟨0xF000, 0x6000, fun w => .ldImm (xField w) (kkField w)⟩,
   ⟨0xF000, 0x7000, fun w => .addImm (xField w) (kkField w)⟩,
   ⟨0xF00F, 0x8000, fun w => .ldReg (xField w) (yField w)⟩,
   ⟨0xF00F, 0x8001, fun w => .orReg (xField w) (yField w)⟩,
   ⟨0xF00F, 0x8002, fun w => .andReg (xField w) (yField w)⟩,
   ⟨0xF00F, 0x8003, fun w => .xorReg (xField w) (yField w)⟩,
   ⟨0xF00F, 0x8004, fun w => .addReg (xField w) (yField w)⟩,
   ⟨0xF00F, 0x8005, fun w => .subReg (xField w) (yField w)⟩,
   ⟨0xF00F, 0x8006, fun w => .shrReg (xField w) (yField w)⟩,
   ⟨0xF00F, 0x8007, fun w => .subnReg (xField w) (yField w)⟩,
   ⟨0xF00F, 0x800E, fun w => .shlReg (xField w) (yField w)⟩,
   ⟨0xF00F, 0x9000, fun w => .sneReg (xField w) (yField w)⟩]

/-- Rows 21 to 35 of R64. -/
def opcodeRows3 : List OpcodeRow :=
  [⟨0xF000, 0xA000, fun w => .ldI (nnnField w)⟩,
   ⟨0xF000, 0xB000, fun w => .jpV0 (nnnField w)⟩,
   ⟨0xF000, 0xC000, fun w => .rnd (xField w) (kkField w)⟩,
   ⟨0xF000, 0xD000, fun w => .drw (xField w) (yField w) (nField w)⟩,
   ⟨0xF0FF, 0xE09E, fun w => .skp (xField w)⟩,
   ⟨0xF0FF, 0xE0A1, fun w => .sknp (xField w)⟩,
   ⟨0xF0FF, 0xF007, fun w => .ldVxDT (xField w)⟩,
   ⟨0xF0FF, 0xF00A, fun w => .ldVxK (xField w)⟩,
   ⟨0xF0FF, 0xF015, fun w => .ldDTVx (xField w)⟩,
   ⟨0xF0FF, 0xF018, fun w => .ldSTVx (xField w)⟩,
   ⟨0xF0FF, 0xF01E, fun w => .addI (xField w)⟩,
   ⟨0xF0FF, 0xF029, fun w => .ldF (xField w)⟩,
   ⟨0xF0FF, 0xF033, fun w => .ldB (xField w)⟩,
   ⟨0xF0FF, 0xF055, fun w => .dumpRegs (xField w)⟩,
   ⟨0xF0FF, 0xF065, fun w => .loadRegs (xField w)⟩]

/-- OPCODE_TABLE, the 35 rows in decode order (R64). -/
def opcodeTable : List OpcodeRow := opcodeRows1 ++ opcodeRows2 ++ opcodeRows3

/-- The first row that selects the word gives the instruction (R63). -/
def decodeRows : List OpcodeRow → Word → Option Instr
  | [], _ => none
  | r :: rows, w => if r.selects w then some (r.build w) else decodeRows rows w

/-- `Decode(w)`; none means that no row selects the word, which is the error InvalidInstruction(w) (R63, R66). It reads no
state. -/
def decodeWord (w : Word) : Option Instr := decodeRows opcodeTable w

/-! ## Bytes (R50, R60) -/

/-- Why bytes are no instruction. -/
inductive DecodeError
  /-- No row of the opcode table selects the word (R66). -/
  | invalidInstruction (w : Word)
  /-- Fewer than the two bytes of an instruction are left (R60). A fetch always gives two, so no step meets it. -/
  | truncated
  deriving DecidableEq, Repr

/-- The word of two bytes: the byte at the lower address holds bits 15..8 (R50). -/
def wordOfBytes (hi lo : Byte) : Word := hi ++ lo

/-- The two bytes of a word, the one at the lower address first (R50). -/
def bytesOfWord (w : Word) : List Byte := [w.extractLsb' 8 8, w.extractLsb' 0 8]

/-- Read one instruction from the front of a byte sequence; the bytes after it are returned. -/
def decode : List Byte → Except DecodeError (Instr × List Byte)
  | hi :: lo :: rest =>
    match decodeWord (wordOfBytes hi lo) with
    | some i => .ok (i, rest)
    | none => .error (.invalidInstruction (wordOfBytes hi lo))
  | [_] => .error .truncated
  | [] => .error .truncated

/-- What the decoder reads from an instruction given as the opcode table numbers its bits: every instruction is one word,
and the bits from `nbits` up are zero. -/
def decodeTableWord (nbits w : Nat) : Option Instr :=
  match decode (bytesOfWord (BitVec.ofNat 16 (w % 2 ^ nbits))) with
  | .ok (i, _) => some i
  | .error _ => none

/-! ## The encoder (R62, R64) -/

/-- A byte of two nibbles, the first one high. -/
def joinByte (a b : Nibble) : Byte := a ++ b

/-- The low twelve bits of a word: a nibble and a byte. -/
def joinLow (a : Nibble) (kk : Byte) : Addr12 := a ++ kk

/-- Format F_A: `oooo aaaa aaaa aaaa`. -/
def formatA (op : Nibble) (nnn : Addr12) : Word := op ++ nnn

/-- Format F_XK, and F_X with its last byte fixed: `oooo xxxx kkkk kkkk`. -/
def formatXK (op : Nibble) (x : RegId) (kk : Byte) : Word := formatA op (joinLow (BitVec.ofFin x) kk)

/-- Format F_XYN, and F_XY with its last nibble fixed: `oooo xxxx yyyy nnnn`. -/
def formatXYN (op : Nibble) (x y : RegId) (n : Nibble) : Word := formatXK op x (joinByte (BitVec.ofFin y) n)

/-- The word of an instruction, from the pattern column of R64. -/
def encodeWord : Instr → Word
  | .cls => 0x00E0
  | .ret => 0x00EE
  | .sys nnn => formatA 0x0 nnn
  | .jp nnn => formatA 0x1 nnn
  | .call nnn => formatA 0x2 nnn
  | .seImm x kk => formatXK 0x3 x kk
  | .sneImm x kk => formatXK 0x4 x kk
  | .seReg x y => formatXYN 0x5 x y 0x0
  | .ldImm x kk => formatXK 0x6 x kk
  | .addImm x kk => formatXK 0x7 x kk
  | .ldReg x y => formatXYN 0x8 x y 0x0
  | .orReg x y => formatXYN 0x8 x y 0x1
  | .andReg x y => formatXYN 0x8 x y 0x2
  | .xorReg x y => formatXYN 0x8 x y 0x3
  | .addReg x y => formatXYN 0x8 x y 0x4
  | .subReg x y => formatXYN 0x8 x y 0x5
  | .shrReg x y => formatXYN 0x8 x y 0x6
  | .subnReg x y => formatXYN 0x8 x y 0x7
  | .shlReg x y => formatXYN 0x8 x y 0xE
  | .sneReg x y => formatXYN 0x9 x y 0x0
  | .ldI nnn => formatA 0xA nnn
  | .jpV0 nnn => formatA 0xB nnn
  | .rnd x kk => formatXK 0xC x kk
  | .drw x y n => formatXYN 0xD x y n
  | .skp x => formatXK 0xE x 0x9E
  | .sknp x => formatXK 0xE x 0xA1
  | .ldVxDT x => formatXK 0xF x 0x07
  | .ldVxK x => formatXK 0xF x 0x0A
  | .ldDTVx x => formatXK 0xF x 0x15
  | .ldSTVx x => formatXK 0xF x 0x18
  | .addI x => formatXK 0xF x 0x1E
  | .ldF x => formatXK 0xF x 0x29
  | .ldB x => formatXK 0xF x 0x33
  | .dumpRegs x => formatXK 0xF x 0x55
  | .loadRegs x => formatXK 0xF x 0x65

/-- The bytes of an instruction as memory holds them (R50). -/
def encode (i : Instr) : List Byte := bytesOfWord (encodeWord i)

end Sys2Proof
end

