-- ==== Sys2Proof/Config.lean ====
section
/-! DEFINITION. What an implementation fixes in the types of the state, and the model's one free value.
The parameters that are plain numbers or tables stand in Machine/Params.lean. -/

namespace Sys2Proof.Config

/-- SCREEN_W (R6, R27, D5). -/
abbrev screenW : Nat := 64

/-- SCREEN_H (R6, R27, D5). -/
abbrev screenH : Nat := 32

/-- The two legal values of the parameter SHIFT_SOURCE (R6, D10, U2). -/
inductive ShiftSource
  | vx
  | vy
  deriving DecidableEq, Repr

/-- The random bytes `draw8()` of Cxkk: a FREE VALUE for each draw, with no law between draws (R12, R98, D29, U7; log 2).
It has no body, so nothing proved of the model depends on a particular byte. -/
opaque freeDraw : Nat → Byte

end Sys2Proof.Config
end

