-- ==== Sys2Proof/Machine/Params.lean ====
section
/-! DEFINITION. The implementation parameters of 00_scope.md R6 that are plain numbers, tables or choices, each at the value
the spec's rules are written for (log 6). They stand here, one definition each, so that a machine with another value of one
of them is described by changing that definition alone. -/

namespace Sys2Proof.Machine

/-- MEM_SIZE (R6, R41). -/
def memSize : Nat := 4096

/-- UNPROTECTED_START, the first address that is not protected (R6, R43, D2). -/
def unprotectedStart : Nat := 0x200

/-- PROGRAM_START, the default load address (R6, R44, D3). -/
def programStart : Nat := 0x200

/-- PC_RESET (R6, R34, D4). -/
def pcReset : Word := 0x200

/-- STACK_DEPTH (R6, R24, D8). -/
def stackDepth : Nat := 16

/-- The number of bytes of an instruction, the amount of an advance of `pc` (R60, R75). -/
def instrBytes : Word := 2

/-- FLAG_REG: VF (R6, R18). -/
def flagReg : RegId := 0xF

/-- SHIFT_SOURCE (R6, D10). -/
def shiftSource : Config.ShiftSource := .vy

/-- ADD_IMM_WRITES_VF (R6, D11, C5). -/
def addImmWritesVF : Bool := true

/-- SPRITE_BIT_ORDER: the bit of a sprite byte that is column `c`; bit 7 is column 0 (R6, R113, D7). -/
def spriteBit (c : Nat) : Nat := 7 - c

/-- FONT_BASE (R6). -/
def fontBase : Nat := 0x000

/-- FONT_STRIDE, the bytes of a glyph (R6, D6). -/
def fontStride : Nat := 5

/-- Glyphs 0 to 7 of R47. -/
def fontLow : List Byte :=
  [0xF0, 0x90, 0x90, 0x90, 0xF0,
   0x20, 0x60, 0x20, 0x20, 0x70,
   0xF0, 0x10, 0xF0, 0x80, 0xF0,
   0xF0, 0x10, 0xF0, 0x10, 0xF0,
   0x90, 0x90, 0xF0, 0x10, 0x10,
   0xF0, 0x80, 0xF0, 0x10, 0xF0,
   0xF0, 0x80, 0xF0, 0x90, 0xF0,
   0xF0, 0x10, 0x20, 0x40, 0x40]

/-- Glyphs 8 to F of R47. -/
def fontHigh : List Byte :=
  [0xF0, 0x90, 0xF0, 0x90, 0xF0,
   0xF0, 0x90, 0xF0, 0x10, 0xF0,
   0xF0, 0x90, 0xF0, 0x90, 0x90,
   0xE0, 0x90, 0xE0, 0x90, 0xE0,
   0xF0, 0x80, 0x80, 0x80, 0xF0,
   0xE0, 0x90, 0x90, 0x90, 0xE0,
   0xF0, 0x80, 0xF0, 0x80, 0xF0,
   0xF0, 0x80, 0xF0, 0x80, 0x80]

/-- FONT, the 80-byte table: byte j of glyph g is byte 5g + j (R47, D6). -/
def font : List Byte := fontLow ++ fontHigh

end Sys2Proof.Machine
end

