-- ==== Sys2Proof/Machine/State.lean ====
section
/-! DEFINITION. The state of the core as plain data (10_state.md), the reasons a step stops, and the state after reset. -/

namespace Sys2Proof.Machine

/-- One pixel of the framebuffer (R27). -/
inductive Pixel
  | off
  | on
  deriving DecidableEq, Repr

/-- One key of the latch (R26). -/
inductive KeyState
  | released
  | pressed
  deriving DecidableEq, Repr

/-- The blocked state (R29); `waitingKey x` remembers the register that receives the released key's code. -/
inductive Blocked
  | notBlocked
  | waitingKey (x : RegId)
  deriving DecidableEq, Repr

/-- The memory: (address, byte) pairs in the canonical form `Memory.wf` (Machine/Ops.lean). -/
abbrev Memory := List Host.Cell

/-- The framebuffer; `pix[x][y]` is column x, row y (R27). -/
abbrev Screen := Vector (Vector Pixel Config.screenH) Config.screenW

/-- The transactions the host invokes (R70). -/
inductive Transaction
  /-- `load_program(bytes)` (R145) -/
  | loadProgram (bytes : List Byte)
  /-- `load_program_to_address(bytes, address)` (R145) -/
  | loadProgramToAddress (bytes : List Byte) (address : Nat)
  /-- `cycle()` (R73) -/
  | cycle
  /-- `update_timers()` (R77) -/
  | updateTimers
  /-- `key_down(k)` (R78) -/
  | keyDown (k : KeyId)
  /-- `key_up(k)` (R79) -/
  | keyUp (k : KeyId)
  /-- `is_blocked()` (R80) -/
  | isBlocked
  /-- `read_pixel(x, y)` (R81) -/
  | readPixel (x : Fin Config.screenW) (y : Fin Config.screenH)
  /-- `read_dirty()` (R82) -/
  | readDirty
  /-- `clear_dirty()` (R82) -/
  | clearDirty
  /-- `read_sound_timer()` (R83) -/
  | readSoundTimer
  deriving DecidableEq, Repr

/-- The state of the core (R9, 10_state.md), and two fields of the model's own. -/
structure State where
  /-- V0..VF (R17) -/
  V : Vector Byte 16
  /-- the address register (R23) -/
  I : AddrReg
  /-- the program counter (R20) -/
  pc : Word
  /-- the call stack, its top first (R24) -/
  stack : List Word
  /-- the delay timer (R25) -/
  DT : Byte
  /-- the sound timer (R25) -/
  ST : Byte
  /-- the memory (R31) -/
  mem : Memory
  /-- the framebuffer (R27) -/
  pix : Screen
  /-- the screen's "content updated" flag (R28) -/
  dirty : Bool
  /-- the key latch (R26) -/
  key : Vector KeyState 16
  /-- the blocked state (R29) -/
  blocked : Blocked
  /-- the jump-request flag (R30) -/
  jump : Bool
  /-- THE MODEL'S OWN: how many random bytes have been drawn; the next one is `Config.freeDraw draws` (R12; log 2) -/
  draws : Nat
  /-- THE MODEL'S OWN: the host's transactions still to come, the next one first; when there is none the next is `cycle`
  (R71; log 3) -/
  hostCalls : List Transaction
  deriving DecidableEq, Repr

/-- Why a transaction returns Err, with its info and the state it leaves (R11, R72, R127, R131; log 1). The run of a claim
ends there (R85), though the core would accept further transactions from `after`; stopping is SAFE. -/
inductive Fault
  /-- Code 1, raised by 00EE on an empty stack (R101). Safe. -/
  | stackUnderflow (after : State)
  /-- Code 2 with the offending address, raised by the fetch (R52), Dxyn (R113), Fx33, Fx55 and Fx65 (R124 to R126). Safe. -/
  | invalidMemoryAccess (addr : Nat) (after : State)
  /-- Code 3 with the word, raised by the decoder (R66). Safe. -/
  | invalidInstruction (w : Word) (after : State)
  /-- Code 4 with the nibble: the spec lists it and says it is never raised (R68, R127; log 9). Safe. -/
  | invalidDataRegister (nibble : Nat) (after : State)
  /-- Code 5 with the register's value, raised by Ex9E and ExA1 (R114 to R116). Safe. -/
  | invalidKey (v : Byte) (after : State)
  /-- Code 6 with the load address, raised by a program load (R145). Safe. -/
  | loadOverlapsProtected (addr : Nat) (after : State)
  /-- Code 7 with `max(address, 4096)`, raised by a program load (R145). Safe. -/
  | loadOutOfBounds (addr : Nat) (after : State)
  /-- Code 8, raised by 2nnn on a full stack (R103). Safe. -/
  | stackOverflow (after : State)
  deriving DecidableEq, Repr

/-- Why a step has no meaning. -/
inductive Refusal
  /-- Raised by an arm of `exec` whose instruction has no meaning yet; every arm has one, so no step raises it. Safe. -/
  | notModelled (mnemonic : String)
  deriving DecidableEq, Repr

/-- The machine at power-on: `Reset()` with every key Released, and no font in memory (R34, R142, R144, D27). `draws` and
`hostCalls` are the model's own (logs 2 and 3). -/
def State.reset : State where
  V := Vector.replicate 16 0
  I := 0
  pc := pcReset
  stack := []
  DT := 0
  ST := 0
  mem := []
  pix := Vector.replicate Config.screenW (Vector.replicate Config.screenH .off)
  dirty := true
  key := Vector.replicate 16 .released
  blocked := .notBlocked
  jump := false
  draws := 0
  hostCalls := []

end Sys2Proof.Machine
end

