-- ==== Sys2Proof/Machine/Ops.lean ====
section
/-! DEFINITION. The named operations over registers, memory, screen and keys that the meanings are written in
(00_scope.md R9, R10; 20_memory.md; 43_display_input_timers.md R110, R111), and raising an error. -/

namespace Sys2Proof.Machine

/-- How a transaction, or the execution of an instruction, ends (R72). -/
abbrev Result := Host.Outcome State Fault Refusal

/-! ## Registers (R9, R17) -/

/-- `V[x]`. No register is hardwired (R17). -/
def State.getV (s : State) (x : RegId) : Byte := s.V.get x

/-- `V[x] <- b`. -/
def State.setV (s : State) (x : RegId) (b : Byte) : State := { s with V := s.V.set x b }

/-- `I <- a`. -/
def State.setI (s : State) (a : AddrReg) : State := { s with I := a }

/-- `pc <- a`. -/
def State.setPc (s : State) (a : Word) : State := { s with pc := a }

/-- `pc <- pc + 2`: the sequencer's advance, and the extra advance of a taken skip (R21, R75). -/
def State.advancePc (s : State) : State := s.setPc (s.pc + instrBytes)

/-- `pc <- target; jump <- 1` (R30, R75). -/
def State.jumpTo (s : State) (target : Word) : State := { s with pc := target, jump := true }

/-- `jump <- 0` (R75). -/
def State.clearJump (s : State) : State := { s with jump := false }

/-- `DT <- b`. -/
def State.setDT (s : State) (b : Byte) : State := { s with DT := b }

/-- `ST <- b`. -/
def State.setST (s : State) (b : Byte) : State := { s with ST := b }

/-- `blocked <- b`. -/
def State.setBlocked (s : State) (b : Blocked) : State := { s with blocked := b }

/-- `key[k]` (R26). -/
def State.getKey (s : State) (k : KeyId) : KeyState := s.key.get k

/-- `key[k] <- v` (R26). -/
def State.setKey (s : State) (k : KeyId) (v : KeyState) : State := { s with key := s.key.set k v }

/-- `draw8()`: the next random byte, which is then used up (R12, D29; log 2). -/
def State.drawByte (s : State) : Byte × State := (Config.freeDraw s.draws, { s with draws := s.draws + 1 })

/-! ## Errors: what `raise` does (R11, R128, R130, R131) -/

/-- `raise E(info)`: the transaction stops and returns the error. Nothing is rolled back, no state records the error, and
control goes nowhere: the state the error leaves is the state at the raise. -/
def raise (e : State → Fault) (s : State) : Result := .fault (e s)

/-- The state an error leaves (R131). -/
def Fault.after : Fault → State
  | .stackUnderflow t => t
  | .invalidMemoryAccess _ t => t
  | .invalidInstruction _ t => t
  | .invalidDataRegister _ t => t
  | .invalidKey _ t => t
  | .loadOverlapsProtected _ t => t
  | .loadOutOfBounds _ t => t
  | .stackOverflow t => t

/-- The same error with another state left: for what the sequencer still does after a raise (R73, R76). -/
def Fault.mapAfter (f : State → State) : Fault → Fault
  | .stackUnderflow t => .stackUnderflow (f t)
  | .invalidMemoryAccess a t => .invalidMemoryAccess a (f t)
  | .invalidInstruction w t => .invalidInstruction w (f t)
  | .invalidDataRegister n t => .invalidDataRegister n (f t)
  | .invalidKey v t => .invalidKey v (f t)
  | .loadOverlapsProtected a t => .loadOverlapsProtected a (f t)
  | .loadOutOfBounds a t => .loadOutOfBounds a (f t)
  | .stackOverflow t => .stackOverflow (f t)

/-- The numeric code of the error's kind (R127, D24). -/
def Fault.code : Fault → Nat
  | .stackUnderflow _ => 1
  | .invalidMemoryAccess _ _ => 2
  | .invalidInstruction _ _ => 3
  | .invalidDataRegister _ _ => 4
  | .invalidKey _ _ => 5
  | .loadOverlapsProtected _ _ => 6
  | .loadOutOfBounds _ _ => 7
  | .stackOverflow _ => 8

/-- The info the error carries; none for the two stack errors (R127). -/
def Fault.info : Fault → Option Nat
  | .stackUnderflow _ => none
  | .invalidMemoryAccess a _ => some a
  | .invalidInstruction w _ => some w.toNat
  | .invalidDataRegister n _ => some n
  | .invalidKey v _ => some v.toNat
  | .loadOverlapsProtected a _ => some a
  | .loadOutOfBounds a _ => some a
  | .stackOverflow _ => none

/-! ## The memory array (R31, R41, R56; log 5) -/

/-- What an address that no entry lists reads as: reset clears every byte to 0 (R34, R56, R144). -/
def Memory.unlisted : Byte := 0

/-- `mem[a]`. -/
def Memory.read : Memory → Nat → Byte
  | [], _ => Memory.unlisted
  | (a', b) :: m, a => if a' = a then b else Memory.read m a

/-- Put a byte before a memory whose addresses are all above it, in the canonical form. -/
def Memory.cons (a : Nat) (b : Byte) (m : Memory) : Memory := if b = Memory.unlisted then m else (a, b) :: m

/-- `mem[a] <- b`, keeping the canonical form. -/
def Memory.write : Memory → Nat → Byte → Memory
  | [], a, b => Memory.cons a b []
  | (a', b') :: m, a, b =>
    if a < a' then Memory.cons a b ((a', b') :: m)
    else if a = a' then Memory.cons a b m
    else (a', b') :: Memory.write m a b

/-- `for j in 0..len-1: mem[a + j] <- bytes[j]`. -/
def Memory.writeBlock : Memory → Nat → List Byte → Memory
  | m, _, [] => m
  | m, a, b :: bs => Memory.writeBlock (Memory.write m a b) (a + 1) bs

/-- `[mem[a], ..., mem[a+n-1]]`. -/
def Memory.readBlock (m : Memory) (a n : Nat) : List Byte := (List.range n).map fun j => Memory.read m (a + j)

/-- The canonical form: addresses strictly rising, each one an address of the array, and no entry equal to what an unlisted
address reads as. -/
abbrev Memory.wf (m : Memory) : Prop :=
  m.Pairwise (fun c d => c.1 < d.1) ∧ ∀ c ∈ m, c.1 < memSize ∧ c.2 ≠ Memory.unlisted

/-- `mem[a]` of a state. -/
def State.byteAt (s : State) (a : Nat) : Byte := Memory.read s.mem a

/-- `mem[a + j] <- bytes[j]` in a state, without a check. -/
def State.storeBlock (s : State) (a : Nat) (bytes : List Byte) : State :=
  { s with mem := Memory.writeBlock s.mem a bytes }

/-! ## The access paths (R42, R45, R46, R48, R49, R52) -/

/-- Which check of a write failed, and the address it reports (R46, R48). -/
inductive WriteError
  /-- The write begins below UNPROTECTED_START. -/
  | belowBoundary (addr : Nat)
  /-- The write passes the end of memory. -/
  | pastEnd (addr : Nat)
  deriving DecidableEq, Repr

/-- The address reported. -/
def WriteError.addr : WriteError → Nat
  | .belowBoundary a => a
  | .pastEnd a => a

/-- `MemRead(addr, 1)`: a bounds check only; none is InvalidMemoryAccess(addr) (R45, D18). -/
def memRead (addr : Nat) (s : State) : Option Byte := if memSize ≤ addr then none else some (s.byteAt addr)

/-- `MemWriteRestricted(addr, n, bytes)`: both checks come before any byte is written (R46). -/
def memWriteRestricted (addr : Nat) (bytes : List Byte) (s : State) : Except WriteError State :=
  if addr < unprotectedStart then .error (.belowBoundary addr)
  else if memSize < addr + bytes.length then .error (.pastEnd (max addr memSize))
  else .ok (s.storeBlock addr bytes)

/-- `MemWriteUnrestricted(addr, n, bytes)`: a bounds check only (R48). -/
def memWriteUnrestricted (addr : Nat) (bytes : List Byte) (s : State) : Except WriteError State :=
  if memSize < addr + bytes.length then .error (.pastEnd (max addr memSize)) else .ok (s.storeBlock addr bytes)

/-- `SpriteRead(addr, n)`: the whole range or Failure (R49, D19). -/
def spriteRead (addr n : Nat) (s : State) : Option (List Byte) :=
  if memSize < addr + n then none else some (Memory.readBlock s.mem addr n)

/-- Can the two bytes at `a` be fetched (R52, D15)? -/
def fetchable (a : Nat) : Bool := unprotectedStart ≤ a && a + 1 < memSize

/-- `Fetch(a)`: the big-endian word at `a`, for odd and even `a`; none is InvalidMemoryAccess(a) (R50, R51, R52). -/
def fetch (a : Nat) (s : State) : Option Word :=
  if fetchable a then some (wordOfBytes (s.byteAt a) (s.byteAt (a + 1))) else none

/-! ## The call stack (R24) -/

/-- `stack <- entries`, the top first. -/
def State.setStack (s : State) (entries : List Word) : State := { s with stack := entries }

/-- `push(v)`. -/
def State.push (s : State) (v : Word) : State := s.setStack (v :: s.stack)

/-- The stack holds STACK_DEPTH entries. The spec writes the test as an equality; `≤` says the same of every stack of 0 to 16
entries, the only ones a run reaches (R24, R103; log 8). -/
def State.stackFull (s : State) : Bool := stackDepth ≤ s.stack.length

/-! ## The screen (R27, R110, R111) -/

/-- XOR of two pixels (R111). -/
def Pixel.xor : Pixel → Pixel → Pixel
  | .off, p => p
  | .on, .off => .on
  | .on, .on => .off

/-- On for a set bit, Off for a clear one (R113). -/
def Pixel.ofBit (b : Bool) : Pixel := if b then .on else .off

/-- `x mod SCREEN_W` (R111). -/
def wrapX (x : Nat) : Fin Config.screenW := Fin.ofNat Config.screenW x

/-- `y mod SCREEN_H` (R111). -/
def wrapY (y : Nat) : Fin Config.screenH := Fin.ofNat Config.screenH y

/-- `pix[x][y]` (R27). -/
def State.pixel (s : State) (x : Fin Config.screenW) (y : Fin Config.screenH) : Pixel := (s.pix.get x).get y

/-- `pix[x][y] <- p`. -/
def State.setPixel (s : State) (x : Fin Config.screenW) (y : Fin Config.screenH) (p : Pixel) : State :=
  { s with pix := s.pix.set x ((s.pix.get x).set y p) }

/-- `dirty <- b` (R28). -/
def State.setDirty (s : State) (b : Bool) : State := { s with dirty := b }

/-- A screen with every pixel Off. -/
def clearScreen : Screen := Vector.replicate Config.screenW (Vector.replicate Config.screenH .off)

/-- `Clear()` (R110, D21). -/
def State.clear (s : State) : State := { s with pix := clearScreen, dirty := true }

/-- `Compose(x, y, p)`: wrap both coordinates, XOR, set `dirty`, and report whether an On pixel became Off (R111). -/
def compose (x y : Nat) (p : Pixel) (s : State) : State × Bool :=
  let old := s.pixel (wrapX x) (wrapY y)
  let new := old.xor p
  ((s.setPixel (wrapX x) (wrapY y) new).setDirty true, old == .on && new == .off)

end Sys2Proof.Machine
end

