-- ==== Sys2Proof/Machine/Operands.lean ====
section
/-! DEFINITION. The operand forms: how an instruction's fields and registers become the values and addresses its rule names. -/

namespace Sys2Proof.Machine

/-- nnn as a value of `pc`: zero-extended (R61). -/
def targetOf (nnn : Addr12) : Word := nnn.zeroExtend 16

/-- nnn as a value of I: zero-extended (R61). -/
def indexOf (nnn : Addr12) : AddrReg := nnn.zeroExtend 64

/-- The address of the instruction that follows (R20, R103). -/
def State.nextPc (s : State) : Word := s.pc + instrBytes

/-- The target of Bnnn: nnn + V0, exact, at most 0x10FE, not reduced to 12 bits (R108, D14). -/
def indexedTarget (nnn : Addr12) (s : State) : Word := targetOf nnn + (s.getV 0).zeroExtend 16

/-- The value that 8xy6 and 8xyE shift: V[y] under SHIFT_SOURCE = Vy, V[x] under the other value (R95, R97, D10). -/
def shiftOperand (x y : RegId) (s : State) : Byte :=
  match shiftSource with
  | .vy => s.getV y
  | .vx => s.getV x

/-- `I + k`, exact, without wrap (R23). -/
def State.indexed (s : State) (k : Nat) : Nat := s.I.toNat + k

/-- The font address of Fx29: FONT_BASE + V[x] * FONT_STRIDE, unmasked and unchecked (R123, D23). -/
def fontAddress (v : Byte) : AddrReg := BitVec.ofNat 64 (fontBase + v.toNat * fontStride)

/-- `KeyFromValue(v)`: none is InvalidKey(v) (R16, R114). -/
def keyFromValue (v : Byte) : Option KeyId := if h : v.toNat < 16 then some ⟨v.toNat, h⟩ else none

/-- The code of a key as a register value (R79). -/
def keyCode (k : KeyId) : Byte := BitVec.ofNat 8 k.val

/-- The decimal digits of a byte: hundreds, tens, ones (R124). -/
def bcdDigits (v : Byte) : Byte × Byte × Byte :=
  (BitVec.ofNat 8 (v.toNat / 100), BitVec.ofNat 8 (v.toNat / 10 % 10), BitVec.ofNat 8 (v.toNat % 10))

/-- The registers 0 to x, inclusive, in ascending order (R125, R126). -/
def regsThrough (x : RegId) : List RegId := (List.finRange 16).take (x.val + 1)

/-- The pixel of column c of a sprite byte (R113, D7). -/
def spritePixel (b : Byte) (c : Nat) : Pixel := Pixel.ofBit (b.getLsbD (spriteBit c))

end Sys2Proof.Machine
end

