-- ==== Sys2Proof/Machine/Flags.lean ====
section
/-! DEFINITION. Every value that is written to VF as a flag (10_state.md R18, 41_alu.md R86, 43_display_input_timers.md R113). -/

namespace Sys2Proof.Machine

/-- Carry of an addition: `bool01(a + b > 255)`, the sum exact (R86, R88, R93). -/
def carryFlag (a b : Byte) : Byte := bool01 (255 < a.toNat + b.toNat)

/-- No borrow of the subtraction a - b: `bool01(a >= b)` (R86, R94, R96). -/
def noBorrowFlag (a b : Byte) : Byte := bool01 (b.toNat ≤ a.toNat)

/-- The bit that a right shift by 1 shifts out, bit 0 (R95). -/
def shiftedOutRight (v : Byte) : Byte := v &&& 1

/-- The bit that a left shift by 1 shifts out, bit 7 (R97). -/
def shiftedOutLeft (v : Byte) : Byte := v >>> 7

/-- Collision: an On pixel became Off during the draw (R113). -/
def collisionFlag (c : Bool) : Byte := bool01 c

/-- `VF <- f`. -/
def State.setFlag (s : State) (f : Byte) : State := s.setV flagReg f

end Sys2Proof.Machine
end

