-- ==== Sys2Proof/Machine/Alu.lean ====
section
/-! DEFINITION. 41_alu.md: loads, arithmetic, logic, shifts and random. Operands are read before the first write (R13);
the order of the two writes when VF is also the destination is the spec's (R88, R93 to R97, D12; log 7). -/

namespace Sys2Proof.Machine

/-- Write a result, then the flag: the order of the additions and subtractions (D12). -/
def State.resultThenFlag (s : State) (x : RegId) (result flag : Byte) : State := (s.setV x result).setFlag flag

/-- Write the flag, then a result: the order of the shifts (D12). -/
def State.flagThenResult (s : State) (x : RegId) (flag result : Byte) : State := (s.setFlag flag).setV x result

/-- 6xkk `LD Vx, kk` (R87). -/
def execLdImm (x : RegId) (kk : Byte) (s : State) : Result := .next (s.setV x kk)

/-- 7xkk `ADD Vx, kk` (R88, D11). -/
def execAddImm (x : RegId) (kk : Byte) (s : State) : Result :=
  let vx := s.getV x
  .next (if addImmWritesVF then s.resultThenFlag x (vx + kk) (carryFlag vx kk) else s.setV x (vx + kk))

/-- 8xy0 `LD Vx, Vy` (R89). -/
def execLdReg (x y : RegId) (s : State) : Result := .next (s.setV x (s.getV y))

/-- 8xy1 `OR Vx, Vy` (R90, D17). -/
def execOrReg (x y : RegId) (s : State) : Result := .next (s.setV x (s.getV x ||| s.getV y))

/-- 8xy2 `AND Vx, Vy` (R91, D17). -/
def execAndReg (x y : RegId) (s : State) : Result := .next (s.setV x (s.getV x &&& s.getV y))

/-- 8xy3 `XOR Vx, Vy` (R92, D17). -/
def execXorReg (x y : RegId) (s : State) : Result := .next (s.setV x (s.getV x ^^^ s.getV y))

/-- 8xy4 `ADD Vx, Vy` (R93). -/
def execAddReg (x y : RegId) (s : State) : Result :=
  let vx := s.getV x
  let vy := s.getV y
  .next (s.resultThenFlag x (vx + vy) (carryFlag vx vy))

/-- 8xy5 `SUB Vx, Vy` (R94). -/
def execSubReg (x y : RegId) (s : State) : Result :=
  let vx := s.getV x
  let vy := s.getV y
  .next (s.resultThenFlag x (vx - vy) (noBorrowFlag vx vy))

/-- 8xy6 `SHR Vx, Vy` (R95). -/
def execShrReg (x y : RegId) (s : State) : Result :=
  let src := shiftOperand x y s
  .next (s.flagThenResult x (shiftedOutRight src) (src >>> 1))

/-- 8xy7 `SUBN Vx, Vy` (R96). -/
def execSubnReg (x y : RegId) (s : State) : Result :=
  let vx := s.getV x
  let vy := s.getV y
  .next (s.resultThenFlag x (vy - vx) (noBorrowFlag vy vx))

/-- 8xyE `SHL Vx, Vy` (R97). -/
def execShlReg (x y : RegId) (s : State) : Result :=
  let src := shiftOperand x y s
  .next (s.flagThenResult x (shiftedOutLeft src) (src <<< 1))

/-- Cxkk `RND Vx, kk` (R98, D29). -/
def execRnd (x : RegId) (kk : Byte) (s : State) : Result :=
  .next (s.drawByte.2.setV x (s.drawByte.1 &&& kk))

end Sys2Proof.Machine
end

