-- ==== Sys2Proof/Machine/Control.lean ====
section
/-! DEFINITION. 42_control_flow.md: jumps, call, return, skips and the legacy SYS. `pc` is the instruction's own address
throughout; the sequencer's advance follows unless the instruction requested a jump (R75). -/

namespace Sys2Proof.Machine

/-- A skip: the extra advance if the condition holds (R75, R104). -/
def skipIf (c : Bool) (s : State) : Result := .next (if c then s.advancePc else s)

/-- 0nnn `SYS nnn`: accepted, no effect (R65, R100). -/
def execSys (_nnn : Addr12) (s : State) : Result := .next s

/-- 00EE `RET` (R101, D13). -/
def execRet (s : State) : Result :=
  match s.stack with
  | [] => raise .stackUnderflow s
  | a :: rest => .next ((s.setStack rest).jumpTo a)

/-- 1nnn `JP nnn` (R102). -/
def execJp (nnn : Addr12) (s : State) : Result := .next (s.jumpTo (targetOf nnn))

/-- 2nnn `CALL nnn` (R103, D8). -/
def execCall (nnn : Addr12) (s : State) : Result :=
  if s.stackFull then raise .stackOverflow s else .next ((s.push s.nextPc).jumpTo (targetOf nnn))

/-- 3xkk `SE Vx, kk` (R104). -/
def execSeImm (x : RegId) (kk : Byte) (s : State) : Result := skipIf (s.getV x == kk) s

/-- 4xkk `SNE Vx, kk` (R105). -/
def execSneImm (x : RegId) (kk : Byte) (s : State) : Result := skipIf (s.getV x != kk) s

/-- 5xy0 `SE Vx, Vy` (R106). -/
def execSeReg (x y : RegId) (s : State) : Result := skipIf (s.getV x == s.getV y) s

/-- 9xy0 `SNE Vx, Vy` (R107). -/
def execSneReg (x y : RegId) (s : State) : Result := skipIf (s.getV x != s.getV y) s

/-- Bnnn `JP V0, nnn` (R108, D14). -/
def execJpV0 (nnn : Addr12) (s : State) : Result := .next (s.jumpTo (indexedTarget nnn s))

end Sys2Proof.Machine
end

