-- ==== Sys2Proof/Machine/Display.lean ====
section
/-! DEFINITION. 43_display_input_timers.md: the framebuffer, the key latch and the timers. -/

namespace Sys2Proof.Machine

/-! ## The draw (R113) -/

/-- Compose one pixel and keep what earlier pixels of the draw reported. -/
def composeInto (x y : Nat) (p : Pixel) (acc : State × Bool) : State × Bool :=
  let r := compose x y p acc.1
  (r.1, acc.2 || r.2)

/-- Columns c, c + 1, ..., 7 of a sprite row whose column 0 is at (x, y); `n` columns are left. -/
def drawColumns (x y : Nat) (b : Byte) : (n c : Nat) → State × Bool → State × Bool
  | 0, _, acc => acc
  | n + 1, c, acc => drawColumns x y b n (c + 1) (composeInto (x + c) y (spritePixel b c) acc)

/-- The rows of a sprite, the first at y: row-major order (R113, D20). -/
def drawRows (x : Nat) : (y : Nat) → List Byte → State × Bool → State × Bool
  | _, [], acc => acc
  | y, b :: rows, acc => drawRows x (y + 1) rows (drawColumns x y b 8 0 acc)

/-! ## Screen instructions -/

/-- 00E0 `CLS` (R112). -/
def execCls (s : State) : Result := .next s.clear

/-- Dxyn `DRW Vx, Vy, n` (R113, D19): the rows are read before any pixel changes, and VF is written last. -/
def execDrw (x y : RegId) (n : Nibble) (s : State) : Result :=
  match spriteRead s.I.toNat n.toNat s with
  | none => raise (.invalidMemoryAccess s.I.toNat) s
  | some rows =>
    let r := drawRows (s.getV x).toNat (s.getV y).toNat rows (s, false)
    .next (r.1.setFlag (collisionFlag r.2))

/-! ## Keyboard instructions -/

/-- A skip on the state of the key whose identifier register x holds (R114 to R116). -/
def skipOnKey (x : RegId) (wanted : KeyState) (s : State) : Result :=
  match keyFromValue (s.getV x) with
  | none => raise (.invalidKey (s.getV x)) s
  | some k => skipIf (s.getKey k == wanted) s

/-- Ex9E `SKP Vx` (R115). -/
def execSkp (x : RegId) (s : State) : Result := skipOnKey x .pressed s

/-- ExA1 `SKNP Vx` (R116). -/
def execSknp (x : RegId) (s : State) : Result := skipOnKey x .released s

/-! ## Timer and wait-for-key instructions -/

/-- Fx07 `LD Vx, DT` (R117). -/
def execLdVxDT (x : RegId) (s : State) : Result := .next (s.setV x s.DT)

/-- Fx0A `LD Vx, K` (R118): the core blocks; the register is written later, by the key release (R79). -/
def execLdVxK (x : RegId) (s : State) : Result := .next (s.setBlocked (.waitingKey x))

/-- Fx15 `LD DT, Vx` (R119). -/
def execLdDTVx (x : RegId) (s : State) : Result := .next (s.setDT (s.getV x))

/-- Fx18 `LD ST, Vx` (R120). -/
def execLdSTVx (x : RegId) (s : State) : Result := .next (s.setST (s.getV x))

end Sys2Proof.Machine
end

