-- ==== Sys2Proof/Machine/IndexMemory.lean ====
section
/-! DEFINITION. 44_index_memory.md: the address register, the font address, BCD and the block transfers. -/

namespace Sys2Proof.Machine

/-- Write one byte through the restricted path and go on, or raise InvalidMemoryAccess with the address (R46). -/
def writeByteThen (addr : Nat) (b : Byte) (s : State) (k : State → Result) : Result :=
  match memWriteRestricted addr [b] s with
  | .error e => raise (.invalidMemoryAccess e.addr) s
  | .ok s' => k s'

/-- Fx55's loop: registers in the order of the list, register r to `base` + r (R125). -/
def dumpLoop (base : Nat) : List RegId → State → Result
  | [], s => .next s
  | r :: rs, s => writeByteThen (base + r.val) (s.getV r) s (dumpLoop base rs)

/-- Fx65's loop: registers in the order of the list, register r from `base` + r (R126). -/
def loadLoop (base : Nat) : List RegId → State → Result
  | [], s => .next s
  | r :: rs, s =>
    match memRead (base + r.val) s with
    | none => raise (.invalidMemoryAccess (base + r.val)) s
    | some b => loadLoop base rs (s.setV r b)

/-- Annn `LD I, nnn` (R121). -/
def execLdI (nnn : Addr12) (s : State) : Result := .next (s.setI (indexOf nnn))

/-- Fx1E `ADD I, Vx`: modulo 2^64, VF not written (R122, D9). -/
def execAddI (x : RegId) (s : State) : Result := .next (s.setI (s.I + (s.getV x).zeroExtend 64))

/-- Fx29 `LD F, Vx` (R123). -/
def execLdF (x : RegId) (s : State) : Result := .next (s.setI (fontAddress (s.getV x)))

/-- Fx33 `LD B, Vx` (R124, D28): both checks come before any write, the bounds check first. -/
def execLdB (x : RegId) (s : State) : Result :=
  let (hundreds, tens, ones) := bcdDigits (s.getV x)
  if memSize ≤ s.indexed 2 then raise (.invalidMemoryAccess (s.indexed 2)) s
  else if s.indexed 0 < unprotectedStart then raise (.invalidMemoryAccess (s.indexed 0)) s
  else
    writeByteThen (s.indexed 0) hundreds s fun s1 =>
    writeByteThen (s.indexed 1) tens s1 fun s2 =>
    writeByteThen (s.indexed 2) ones s2 fun s3 => .next s3

/-- Fx55 `LD [I], Vx` (R125): I is not changed (D22). -/
def execDumpRegs (x : RegId) (s : State) : Result := dumpLoop s.I.toNat (regsThrough x) s

/-- Fx65 `LD Vx, [I]` (R126): I is not changed (D22). -/
def execLoadRegs (x : RegId) (s : State) : Result := loadLoop s.I.toNat (regsThrough x) s

end Sys2Proof.Machine
end

