-- ==== Sys2Proof/Machine/Sequencer.lean ====
section
/-! DEFINITION. The sequencer and every transaction of the host (40_sequencer.md), with reset and program load
(70_reset_and_hazards.md). -/

namespace Sys2Proof.Machine

/-! ## The cycle (R73 to R76) -/

/-- Fetch at pc, decode, execute (R73); an error is the first one met (R129). -/
def fetchDecodeExecute (s : State) : Result :=
  match fetch s.pc.toNat s with
  | none => raise (.invalidMemoryAccess s.pc.toNat) s
  | some w =>
    match decodeWord w with
    | none => raise (.invalidInstruction w) s
    | some i => exec i s

/-- `if jump == 0: pc <- pc + 2`, then `jump <- 0` (R75). -/
def State.endCycle (s : State) : State := (if s.jump then s else s.advancePc).clearJump

/-- What the sequencer does after Execute: on success the advance, on an error only `jump <- 0` (R73, R75, R76). -/
def finishCycle : Result → Result
  | .next s => .next s.endCycle
  | .fault f => .fault (f.mapAfter State.clearJump)
  | .refused r => .refused r

/-- `cycle()`: nothing while blocked (R74), otherwise one instruction (R73). -/
def cycle (s : State) : Result :=
  match s.blocked with
  | .waitingKey _ => .next s
  | .notBlocked => finishCycle (fetchDecodeExecute s)

/-! ## Timers and keys (R77 to R79) -/

/-- A timer counts down by 1, floored at 0 (R77). -/
def tick (t : Byte) : Byte := if t = 0 then 0 else t - 1

/-- `update_timers()`: the timers are frozen while blocked (R77). -/
def updateTimers (s : State) : State :=
  match s.blocked with
  | .waitingKey _ => s
  | .notBlocked => (s.setDT (tick s.DT)).setST (tick s.ST)

/-- `key_down(k)`: the latch only, blocked or not (R78). -/
def keyDown (k : KeyId) (s : State) : State := s.setKey k .pressed

/-- `key_up(k)`: the latch, and the resolution of a wait, whichever key is released (R79, R133, D30). -/
def keyUp (k : KeyId) (s : State) : State :=
  match s.blocked with
  | .notBlocked => s.setKey k .released
  | .waitingKey x => ((s.setKey k .released).setV x (keyCode k)).setBlocked .notBlocked

/-! ## Reset and program load (R141 to R147) -/

/-- `Reset()`: every part of the core's state but the key latch (R143, R144, D27). The host's coming calls and the count of
random draws are inputs, not state of the core, and no reset touches them (logs 2 and 3). -/
def resetCore (s : State) : State :=
  { State.reset with key := s.key, draws := s.draws, hostCalls := s.hostCalls }

/-- The font install of a program load; it cannot fail (R48, R145). -/
def installFont (s : State) : State :=
  match memWriteUnrestricted fontBase font s with
  | .ok s' => s'
  | .error _ => s

/-- `load_program_to_address(bytes, a)`: the restricted path's two checks, reported with the load's own kinds (R46, R145, C12). -/
def loadProgramToAddress (bytes : List Byte) (a : Nat) (s : State) : Result :=
  let s' := installFont (resetCore s)
  match memWriteRestricted a bytes s' with
  | .error (.belowBoundary e) => raise (.loadOverlapsProtected e) s'
  | .error (.pastEnd e) => raise (.loadOutOfBounds e) s'
  | .ok s'' => .next (s''.setPc (BitVec.ofNat 16 a))

/-- `load_program(bytes)` (R145, D3). -/
def loadProgram (bytes : List Byte) (s : State) : Result := loadProgramToAddress bytes programStart s

/-! ## Outputs (R80 to R83) -/

/-- `is_blocked()` (R80). -/
def isBlocked (s : State) : Bool :=
  match s.blocked with
  | .notBlocked => false
  | .waitingKey _ => true

/-- What a transaction that succeeds returns beside Ok (R70). -/
inductive Reply
  | ok
  | bit (b : Bool)
  | pixel (p : Pixel)
  | byte (v : Byte)
  deriving DecidableEq, Repr

/-- The value a transaction returns, read before it changes anything (R70, R80 to R83). -/
def reply (t : Transaction) (s : State) : Reply :=
  match t with
  | .isBlocked => .bit (isBlocked s)
  | .readPixel x y => .pixel (s.pixel x y)
  | .readDirty => .bit s.dirty
  | .readSoundTimer => .byte s.ST
  | .loadProgram _ | .loadProgramToAddress _ _ | .cycle | .updateTimers | .keyDown _ | .keyUp _ | .clearDirty => .ok

/-- What a transaction does (R70 to R72). -/
def transact (t : Transaction) (s : State) : Result :=
  match t with
  | .loadProgram bytes => loadProgram bytes s
  | .loadProgramToAddress bytes a => loadProgramToAddress bytes a s
  | .cycle => cycle s
  | .updateTimers => .next (updateTimers s)
  | .keyDown k => .next (keyDown k s)
  | .keyUp k => .next (keyUp k s)
  | .isBlocked => .next s
  | .readPixel _ _ => .next s
  | .readDirty => .next s
  | .clearDirty => .next (s.setDirty false)
  | .readSoundTimer => .next s

/-- The host's next call, which is then no longer to come; with none listed the host calls `cycle` (R71; log 3). -/
def nextTransaction (s : State) : Result :=
  match s.hostCalls with
  | [] => cycle s
  | t :: ts => transact t { s with hostCalls := ts }

/-! ## Placing one instruction -/

/-- The address the next cycle fetches at, or the program start where `pc` cannot be fetched at (log 4). -/
def placeAddress (s : State) : Word := if fetchable s.pc.toNat then s.pc else BitVec.ofNat 16 programStart

/-- The state with the bytes of an instruction where the next step fetches, and nothing before that fetch: not blocked, and
no other host call to come (log 4). -/
def placeInstr (bytes : List Byte) (s : State) : State :=
  { (s.storeBlock (placeAddress s).toNat bytes).setPc (placeAddress s) with blocked := .notBlocked, hostCalls := [] }

end Sys2Proof.Machine
end

