-- ==== Sys2Proof/Machine/Step.lean ====
section
/-! DEFINITION. One step of the machine is one transaction (40_sequencer.md R70, R71), and the placing of one instruction for
the very next step. -/

namespace Sys2Proof.Machine

/-- One step: the host's next transaction, `cycle` where it lists none. -/
def step (s : State) : Host.Outcome State Fault Refusal := nextTransaction s

/-- The state whose very next step fetches and runs the instruction, whose bits are numbered as the opcode table numbers
them (log 4). -/
def State.withFetchWord (s : State) (nbits w : Nat) : State :=
  placeInstr (bytesOfWord (BitVec.ofNat 16 (w % 2 ^ nbits))) s

end Sys2Proof.Machine
end

