-- ==== Sys2Proof/Safety.lean ====
section
/-! DEFINITION. The terms the claims use: what a state must satisfy, what a step leaves unchanged, which registers an
instruction may write, and what a run is. -/

namespace Sys2Proof.Machine

/-! ## Frames -/

/-- The parts of the state. -/
inductive Part
  | regs | index | pc | stack | delay | sound | memory | pixels | dirty | keys | blocked | jump | draws | hostCalls
  deriving DecidableEq, Repr

/-- The part reads the same in both states: registers, bytes, pixels and keys one by one, through the model's reads. -/
def Part.same (p : Part) (s t : State) : Prop :=
  match p with
  | .regs => ∀ r, t.getV r = s.getV r
  | .index => t.I = s.I
  | .pc => t.pc = s.pc
  | .stack => t.stack = s.stack
  | .delay => t.DT = s.DT
  | .sound => t.ST = s.ST
  | .memory => ∀ a, t.byteAt a = s.byteAt a
  | .pixels => ∀ u v, t.pixel u v = s.pixel u v
  | .dirty => t.dirty = s.dirty
  | .keys => ∀ k, t.getKey k = s.getKey k
  | .blocked => t.blocked = s.blocked
  | .jump => t.jump = s.jump
  | .draws => t.draws = s.draws
  | .hostCalls => t.hostCalls = s.hostCalls

/-- Every part but the listed ones is unchanged. -/
def UnchangedBut (parts : List Part) (s t : State) : Prop := ∀ p, p ∉ parts → p.same s t

/-- Every register but the listed ones is unchanged. -/
def RegsUnchangedBut (regs : List RegId) (s t : State) : Prop := ∀ r, r ∉ regs → t.getV r = s.getV r

/-- Every byte outside the `n` bytes from `a` on is unchanged. -/
def BytesUnchangedOutside (a n : Nat) (s t : State) : Prop := ∀ b, b < a ∨ a + n ≤ b → t.byteAt b = s.byteAt b

/-- The byte at `b` after the bytes `bs` were stored from `a` on in a memory that held what `s` holds. -/
def overlaid (a : Nat) (bs : List Byte) (s : State) (b : Nat) : Byte :=
  if a ≤ b then bs.getD (b - a) (s.byteAt b) else s.byteAt b

/-- Every fetch in `t` sees the bytes `bs` stored from `a` on over what `s` holds, big-endian (R50, R52, R58). -/
def FetchSees (a : Nat) (bs : List Byte) (s t : State) : Prop :=
  ∀ b, 0x200 ≤ b → b + 1 < 4096 →
    ∃ w, fetch b t = some w ∧ w.toNat = (overlaid a bs s b).toNat * 256 + (overlaid a bs s (b + 1)).toNat

/-- The word is the encoding of the instruction, both ways (R62, R64). -/
def IsWordOf (w : Word) (i : Instr) : Prop := encodeWord i = w ∧ decodeWord w = some i

/-! ## What an instruction may write -/

/-- The registers an instruction may write: its named destination, the range of Fx65, and VF for the seven instructions that
write it as a flag (R17, R18). -/
def writesReg (i : Instr) (r : RegId) : Prop :=
  match i with
  | .ldImm x _ | .ldReg x _ | .orReg x _ | .andReg x _ | .xorReg x _ | .rnd x _ | .ldVxDT x => r = x
  | .addImm x _ | .addReg x _ | .subReg x _ | .shrReg x _ | .subnReg x _ | .shlReg x _ => r = x ∨ r = 0xF
  | .drw _ _ _ => r = 0xF
  | .loadRegs x => r ≤ x
  | .cls | .ret | .sys _ | .jp _ | .call _ | .seImm _ _ | .sneImm _ _ | .seReg _ _ | .sneReg _ _ | .ldI _ | .jpV0 _
  | .skp _ | .sknp _ | .ldVxK _ | .ldDTVx _ | .ldSTVx _ | .addI _ | .ldF _ | .ldB _ | .dumpRegs _ => False

/-- The instructions that request a jump (R30, R75). -/
def requestsJump (i : Instr) : Bool :=
  match i with
  | .jp _ | .call _ | .jpV0 _ | .ret => true
  | .cls | .sys _ | .seImm _ _ | .sneImm _ _ | .seReg _ _ | .ldImm _ _ | .addImm _ _ | .ldReg _ _ | .orReg _ _
  | .andReg _ _ | .xorReg _ _ | .addReg _ _ | .subReg _ _ | .shrReg _ _ | .subnReg _ _ | .shlReg _ _ | .sneReg _ _
  | .ldI _ | .rnd _ _ | .drw _ _ _ | .skp _ | .sknp _ | .ldVxDT _ | .ldVxK _ | .ldDTVx _ | .ldSTVx _ | .addI _
  | .ldF _ | .ldB _ | .dumpRegs _ | .loadRegs _ => false

/-- The skip instructions (R75). -/
def isSkip (i : Instr) : Bool :=
  match i with
  | .seImm _ _ | .sneImm _ _ | .seReg _ _ | .sneReg _ _ | .skp _ | .sknp _ => true
  | .cls | .ret | .sys _ | .jp _ | .call _ | .ldImm _ _ | .addImm _ _ | .ldReg _ _ | .orReg _ _ | .andReg _ _
  | .xorReg _ _ | .addReg _ _ | .subReg _ _ | .shrReg _ _ | .subnReg _ _ | .shlReg _ _ | .ldI _ | .jpV0 _ | .rnd _ _
  | .drw _ _ _ | .ldVxDT _ | .ldVxK _ | .ldDTVx _ | .ldSTVx _ | .addI _ | .ldF _ | .ldB _ | .dumpRegs _
  | .loadRegs _ => false

/-- The parts of the state an instruction may write: pc by skips, jumps, call and return (R21), I by Annn, Fx1E and Fx29 (R23),
the stack by 2nnn and 00EE (R24), DT by Fx15 and ST by Fx18 (R25), no key by any (R26), the screen by 00E0 and Dxyn (R27, R28),
`blocked` by Fx0A (R29), `jump` by the four jumps (R30), memory by Fx33 and Fx55 (R42); a random byte is drawn by Cxkk (R12). -/
def partsWritten (i : Instr) : List Part :=
  match i with
  | .cls => [.pixels, .dirty]
  | .ret | .call _ => [.pc, .stack, .jump]
  | .sys _ => []
  | .jp _ | .jpV0 _ => [.pc, .jump]
  | .seImm _ _ | .sneImm _ _ | .seReg _ _ | .sneReg _ _ | .skp _ | .sknp _ => [.pc]
  | .ldImm _ _ | .addImm _ _ | .ldReg _ _ | .orReg _ _ | .andReg _ _ | .xorReg _ _ | .addReg _ _ | .subReg _ _
  | .shrReg _ _ | .subnReg _ _ | .shlReg _ _ | .ldVxDT _ | .loadRegs _ => [.regs]
  | .rnd _ _ => [.regs, .draws]
  | .drw _ _ _ => [.regs, .pixels, .dirty]
  | .ldVxK _ => [.blocked]
  | .ldDTVx _ => [.delay]
  | .ldSTVx _ => [.sound]
  | .ldI _ | .addI _ | .ldF _ => [.index]
  | .ldB _ | .dumpRegs _ => [.memory]

/-! ## The state a transaction leaves -/

/-- The state a transaction leaves, on Ok and on Err (R72, R76, R132); a refusal leaves none. -/
def Leaves (r : Result) (t : State) : Prop := r = .next t ∨ ∃ f, r = .fault f ∧ f.after = t

/-! ## The invariant -/

/-- What the protected region holds: nothing before the first program load, the font and zeros after one (R43, R55, R142). -/
def ProtectedRegion (s : State) : Prop :=
  (∀ a, a < unprotectedStart → s.byteAt a = 0) ∨ (∀ a, a < unprotectedStart → s.byteAt a = font.getD a 0)

/-- What holds between transactions, whatever the host does. -/
structure Inv (s : State) : Prop where
  /-- the memory list is in its canonical form (R31, R41) -/
  memWf : Memory.wf s.mem
  /-- 0 to STACK_DEPTH return addresses (R24) -/
  stackBound : s.stack.length ≤ stackDepth
  /-- each one the address after a fetchable CALL (R101) -/
  returnAddresses : ∀ a ∈ s.stack, 0x202 ≤ a.toNat ∧ a.toNat ≤ 0x1000
  /-- the largest value any write of `pc` produces (R21) -/
  pcBound : s.pc.toNat ≤ 0x10FE
  /-- `jump` is 0 at the start and the end of every transaction (R30) -/
  jumpClear : s.jump = false
  /-- no instruction changes the protected region (R55) -/
  protectedRegion : ProtectedRegion s

/-! ## Runs (R71, R85, R132) -/

/-- A machine at power-on whose host will make the given calls (R142, R71). -/
def powerOn (calls : List Transaction) : State := { State.reset with hostCalls := calls }

/-- The states of a run: each step is one transaction; after an error the core goes on from the state it left (R132). -/
inductive Reachable : State → Prop
  | start (calls : List Transaction) : Reachable (powerOn calls)
  | step (s t : State) : Reachable s → Leaves (step s) t → Reachable t

/-- A claim's run ends with a fault at the first transaction that returns Err (R85); a state is safe when the next transaction
returns Ok. -/
def Safe (s : State) : Prop := ∃ t, step s = .next t

end Sys2Proof.Machine
end

