-- ==== Sys2Proof/Certificates/Slice0/Obligations.lean ====
section
/-! DEFINITION. The statements for the provers. Each docstring names the rules of spec/ it formalises. -/

open Sys2Proof Sys2Proof.Machine

/-! ## Encoding (30_encoding.md) -/

/-- Decoding the bytes of a well-formed instruction gives it back, with every operand at every value, and leaves the bytes
behind it (R60 to R65). -/
def Obligations.EncodeThenDecode : Prop :=
  ∀ (i : Instr) (rest : List Byte), i.wf = true → decode (encode i ++ rest) = .ok (i, rest)

/-- A word that decodes is the encoding of the well-formed instruction it decodes to, so no two words mean one instruction and
no bit is dropped (R62 to R64). -/
def Obligations.DecodeThenEncode : Prop :=
  ∀ (w : Word) (i : Instr), decodeWord w = some i → i.wf = true ∧ encodeWord i = w

/-- The illegal words are exactly the five groups of R66. -/
def Obligations.IllegalWordsAreTheFiveGroups : Prop :=
  ∀ w : Word, decodeWord w = none ↔
    ((w.toNat / 4096 = 5 ∨ w.toNat / 4096 = 9) ∧ w.toNat % 16 ≠ 0) ∨
    (w.toNat / 4096 = 8 ∧ w.toNat % 16 ∈ [0x8, 0x9, 0xA, 0xB, 0xC, 0xD, 0xF]) ∨
    (w.toNat / 4096 = 0xE ∧ w.toNat % 256 ∉ [0x9E, 0xA1]) ∨
    (w.toNat / 4096 = 0xF ∧ w.toNat % 256 ∉ [0x07, 0x0A, 0x15, 0x18, 0x1E, 0x29, 0x33, 0x55, 0x65])

/-- Words of every format of R62, written out from the patterns of R64, decode to the instructions they stand for. -/
def Obligations.WordsOfEveryFormatDecode : Prop :=
  decode [0x00, 0xE0] = .ok (.cls, []) ∧ decode [0x00, 0xEE] = .ok (.ret, []) ∧
  decode [0x01, 0x23] = .ok (.sys 0x123, []) ∧ decode [0x24, 0x56] = .ok (.call 0x456, []) ∧
  decode [0x6A, 0x2B] = .ok (.ldImm 0xA 0x2B, []) ∧ decode [0x8A, 0xBE] = .ok (.shlReg 0xA 0xB, []) ∧
  decode [0xD1, 0x2F] = .ok (.drw 0x1 0x2 0xF, []) ∧ decode [0xE5, 0xA1] = .ok (.sknp 0x5, []) ∧
  decode [0xF3, 0x65] = .ok (.loadRegs 0x3, []) ∧ decode [0x50, 0x11] = .error (.invalidInstruction 0x5011)

/-! ## The sequencer (40_sequencer.md) -/

/-- When the bytes at `pc` decode to a well-formed instruction, a cycle of a core that is not blocked is that instruction's
execution, then the advance by 2 unless it requested a jump, and `jump` cleared on Ok and on Err, whatever calls of the host are
still to come (R73, R75, R76). A step is such a cycle when the host lists no call, and when the call it lists first is `cycle`
(log 3). -/
def Obligations.StepRunsTheDecodedInstruction : Prop :=
  (∀ (s : State) (i : Instr), s.blocked = .notBlocked → 0x200 ≤ s.pc.toNat → s.pc.toNat + 1 < 4096 →
    decode [s.byteAt s.pc.toNat, s.byteAt (s.pc.toNat + 1)] = .ok (i, []) → i.wf = true →
    transact .cycle s =
      match exec i s with
      | .next t => .next (if t.jump then t.clearJump else (t.setPc (t.pc + 2)).clearJump)
      | .fault f => .fault (f.mapAfter State.clearJump)
      | .refused r => .refused r) ∧
  (∀ s : State, s.hostCalls = [] → step s = transact .cycle s) ∧
  (∀ (s : State) (calls : List Transaction), s.hostCalls = .cycle :: calls →
    step s = transact .cycle { s with hostCalls := calls })

/-- R52: the fetch rejects every address below 0x200 and every address whose second byte is past memory, and otherwise gives
the big-endian word; a failed fetch reports the address and changes nothing (but that `jump`, which is 0 already, is cleared). -/
def Obligations.FetchRangeAndByteOrder : Prop :=
  ∀ (a : Nat) (s : State),
    (a < 0x200 ∨ 4096 ≤ a + 1 → fetch a s = none) ∧
    (0x200 ≤ a → a + 1 < 4096 →
      ∃ w, fetch a s = some w ∧ w.toNat = (s.byteAt a).toNat * 256 + (s.byteAt (a + 1)).toNat) ∧
    (s.blocked = .notBlocked → s.pc.toNat = a → (a < 0x200 ∨ 4096 ≤ a + 1) →
      ∃ t, transact .cycle s = .fault (.invalidMemoryAccess a t) ∧ UnchangedBut [.jump] s t ∧ t.jump = false)

/-- R66: a fetched word that matches no row raises InvalidInstruction with that word; `pc` and everything else stay. -/
def Obligations.UndecodableWordRaises : Prop :=
  ∀ (s : State) (w : Word), s.blocked = .notBlocked → fetch s.pc.toNat s = some w → decodeWord w = none →
    ∃ t, transact .cycle s = .fault (.invalidInstruction w t) ∧ UnchangedBut [.jump] s t ∧ t.jump = false

/-- While blocked, `cycle` returns Ok and changes no state, and no random byte is drawn (R74). So does a step where the host lists
no call, since such a step is a cycle, which is the model's own choice (log 3). -/
def Obligations.BlockedCycleChangesNothing : Prop :=
  ∀ (s : State) (x : RegId), s.blocked = .waitingKey x → transact .cycle s = .next s ∧ (s.hostCalls = [] → step s = .next s)

/-- R75: an instruction that requests no jump ends its cycle 2 further, or 4 further if it is a skip, never more; the sum is
exact, at most 0x1002 (an inference the spec marks as its own in R75); and `jump` is 0 at the end of every successful cycle. -/
def Obligations.CycleAdvancesByTwoOrFour : Prop :=
  ∀ (s t : State) (w : Word) (i : Instr), s.blocked = .notBlocked → s.jump = false →
    fetch s.pc.toNat s = some w → decodeWord w = some i → transact .cycle s = .next t →
    t.jump = false ∧
    (requestsJump i = false →
      (t.pc.toNat = s.pc.toNat + 2 ∨ (isSkip i = true ∧ t.pc.toNat = s.pc.toNat + 4)) ∧ t.pc.toNat ≤ 0x1002)

/-- R76 and R131: after a failed cycle `pc` is the address of the instruction that failed, `jump` is 0, the writes Fx55 or Fx65
made before the raise are all that changed (bytes from I to the end of memory, and none if I is protected; registers whose byte
exists), and every other failing instruction has changed nothing. That no failing instruction
moves `pc` is an inference the spec marks as its own in R76, and the cleared `jump` is its decision D25. -/
def Obligations.FailedCycleIsPreciseInPc : Prop :=
  ∀ (s : State) (f : Fault), s.blocked = .notBlocked → transact .cycle s = .fault f →
    f.after.pc = s.pc ∧ f.after.jump = false ∧
    (∀ w i, fetch s.pc.toNat s = some w → decodeWord w = some i →
      (∀ x, i = .dumpRegs x → UnchangedBut [.memory, .jump] s f.after ∧
        (s.I.toNat < 0x200 → ∀ a, f.after.byteAt a = s.byteAt a) ∧
        BytesUnchangedOutside s.I.toNat (4096 - s.I.toNat) s f.after) ∧
      (∀ x, i = .loadRegs x → UnchangedBut [.regs, .jump] s f.after ∧
        ∀ r : RegId, 4096 ≤ s.I.toNat + r.val → f.after.getV r = s.getV r) ∧
      ((∀ x, i ≠ .dumpRegs x) → (∀ x, i ≠ .loadRegs x) → UnchangedBut [.jump] s f.after))

/-- R22: `pc` keeps its parity in every successful cycle whose instruction requests no jump. -/
def Obligations.PcKeepsItsParity : Prop :=
  ∀ (s t : State) (w : Word) (i : Instr), s.jump = false → fetch s.pc.toNat s = some w → decodeWord w = some i →
    requestsJump i = false → transact .cycle s = .next t →
    t.pc.toNat % 2 = s.pc.toNat % 2

/-- The host's calls are taken one at a time, in their order, each whole; with none listed the host calls `cycle`. The list is
the model's own (log 3) and stands for any order of calls (R71). -/
def Obligations.StepTakesTheNextHostCall : Prop :=
  ∀ (s : State) (c : Transaction) (cs : List Transaction),
    step { s with hostCalls := c :: cs } = transact c { s with hostCalls := cs } ∧
    step { s with hostCalls := [] } = transact .cycle { s with hostCalls := [] }

/-! ## Timers, keys and outputs (40_sequencer.md, 60_exceptions.md) -/

/-- R77: each timer counts down by 1, floored at 0; while blocked nothing changes. -/
def Obligations.UpdateTimersCountsDown : Prop :=
  ∀ s : State,
    (∀ x, s.blocked = .waitingKey x → transact .updateTimers s = .next s) ∧
    (s.blocked = .notBlocked → ∃ t, transact .updateTimers s = .next t ∧
      t.DT.toNat = s.DT.toNat - 1 ∧ t.ST.toNat = s.ST.toNat - 1 ∧ UnchangedBut [.delay, .sound] s t)

/-- R78 and R79: key_down and key_up write the latch; a release while blocked also writes the key's code to the remembered
register and clears the wait, and moves no `pc`. -/
def Obligations.KeyEvents : Prop :=
  ∀ (k : KeyId) (s : State),
    (∃ t, transact (.keyDown k) s = .next t ∧ t.getKey k = .pressed ∧ (∀ j, j ≠ k → t.getKey j = s.getKey j) ∧
      UnchangedBut [.keys] s t) ∧
    (∃ t, transact (.keyUp k) s = .next t ∧ t.getKey k = .released ∧ (∀ j, j ≠ k → t.getKey j = s.getKey j) ∧
      t.blocked = .notBlocked ∧
      (s.blocked = .notBlocked → UnchangedBut [.keys] s t) ∧
      (∀ x, s.blocked = .waitingKey x → (t.getV x).toNat = k.val ∧ RegsUnchangedBut [x] s t ∧
        UnchangedBut [.keys, .regs, .blocked] s t))

/-- R140: a wait is left only by a key release (or by the reset inside a program load, R144), and until then only the key latch
and the dirty flag, which the host itself writes, can change. -/
def Obligations.OnlyReleaseOrLoadEndsAWait : Prop :=
  ∀ (c : Transaction) (s t : State) (x : RegId), s.blocked = .waitingKey x → Leaves (transact c s) t →
    (∃ k, c = .keyUp k) ∨ (∃ bs, c = .loadProgram bs) ∨ (∃ bs a, c = .loadProgramToAddress bs a) ∨
    (t.blocked = .waitingKey x ∧ UnchangedBut [.keys, .dirty] s t)

/-- R80 to R83: the outputs return what they name and change no state; clear_dirty clears the flag alone. -/
def Obligations.OutputsReadTheState : Prop :=
  ∀ (s : State) (x : Fin 64) (y : Fin 32),
    (reply .isBlocked s = .bit (decide (s.blocked ≠ .notBlocked)) ∧ transact .isBlocked s = .next s) ∧
    (reply (.readPixel x y) s = .pixel (s.pixel x y) ∧ transact (.readPixel x y) s = .next s) ∧
    (reply .readDirty s = .bit s.dirty ∧ transact .readDirty s = .next s) ∧
    (reply .readSoundTimer s = .byte s.ST ∧ transact .readSoundTimer s = .next s) ∧
    (∃ t, transact .clearDirty s = .next t ∧ t.dirty = false ∧ UnchangedBut [.dirty] s t)

/-! ## Reset and program load (70_reset_and_hazards.md) -/

/-- R34 and R142: the power-on state, every key Released and no font in memory. -/
def Obligations.PowerOnState : Prop :=
  (∀ r, State.reset.getV r = 0) ∧ State.reset.I = 0 ∧ State.reset.pc = 0x200 ∧ State.reset.stack = [] ∧
  State.reset.DT = 0 ∧ State.reset.ST = 0 ∧ (∀ a, State.reset.byteAt a = 0) ∧
  (∀ u v, State.reset.pixel u v = .off) ∧ State.reset.dirty = true ∧ (∀ k, State.reset.getKey k = .released) ∧
  State.reset.blocked = .notBlocked ∧ State.reset.jump = false

/-- The invariant holds at power-on, for every sequence of host calls to come. -/
def Obligations.InvariantHoldsAtPowerOn : Prop := ∀ calls, Inv (powerOn calls)

/-- With no load, 1792 cycles run SYS through zeroed memory up to pc = 0x1000, and the next one fails there: an inference the
spec marks as its own in R142. -/
def Obligations.ZeroedMemoryRunsToItsEnd : Prop :=
  (∀ n, n ≤ 1792 → core.run n State.reset = .next (State.reset.setPc (BitVec.ofNat 16 (0x200 + 2 * n)))) ∧
  ∃ t, core.run 1793 State.reset = .fault (.invalidMemoryAccess 0x1000 t) ∧ t.pc = 0x1000

/-- R145 and R47: a load resets the core but its key latch, installs the 80 bytes of R47's table, and then either writes the program
and sets `pc`, or fails with nothing written; the protected region is checked before the bounds. -/
def Obligations.ProgramLoad : Prop :=
  ∀ (bytes : List Byte) (a : Nat) (s : State),
    let glyphs : List Byte :=
      [0xF0, 0x90, 0x90, 0x90, 0xF0] ++ [0x20, 0x60, 0x20, 0x20, 0x70] ++
      [0xF0, 0x10, 0xF0, 0x80, 0xF0] ++ [0xF0, 0x10, 0xF0, 0x10, 0xF0] ++
      [0x90, 0x90, 0xF0, 0x10, 0x10] ++ [0xF0, 0x80, 0xF0, 0x10, 0xF0] ++
      [0xF0, 0x80, 0xF0, 0x90, 0xF0] ++ [0xF0, 0x10, 0x20, 0x40, 0x40] ++
      [0xF0, 0x90, 0xF0, 0x90, 0xF0] ++ [0xF0, 0x90, 0xF0, 0x10, 0xF0] ++
      [0xF0, 0x90, 0xF0, 0x90, 0x90] ++ [0xE0, 0x90, 0xE0, 0x90, 0xE0] ++
      [0xF0, 0x80, 0x80, 0x80, 0xF0] ++ [0xE0, 0x90, 0x90, 0x90, 0xE0] ++
      [0xF0, 0x80, 0xF0, 0x80, 0xF0] ++ [0xF0, 0x80, 0xF0, 0x80, 0x80]
    transact (.loadProgram bytes) s = transact (.loadProgramToAddress bytes 0x200) s ∧
    ∃ t : State,
      ((∀ r, t.getV r = 0) ∧ t.I = 0 ∧ t.stack = [] ∧ t.DT = 0 ∧ t.ST = 0 ∧ (∀ u v, t.pixel u v = .off) ∧
        t.dirty = true ∧ t.blocked = .notBlocked ∧ t.jump = false ∧ (∀ k, t.getKey k = s.getKey k) ∧
        (∀ b, (h : b < glyphs.length) → t.byteAt b = glyphs[b]) ∧ glyphs.length = 80) ∧
      (a < 0x200 → transact (.loadProgramToAddress bytes a) s = .fault (.loadOverlapsProtected a t) ∧
        t.pc = 0x200 ∧ (∀ b, 80 ≤ b → b < 4096 → t.byteAt b = 0)) ∧
      (0x200 ≤ a → 4096 < a + bytes.length →
        transact (.loadProgramToAddress bytes a) s = .fault (.loadOutOfBounds (max a 4096) t) ∧
        t.pc = 0x200 ∧ (∀ b, 80 ≤ b → b < 4096 → t.byteAt b = 0)) ∧
      (0x200 ≤ a → a + bytes.length ≤ 4096 → transact (.loadProgramToAddress bytes a) s = .next t ∧
        t.pc.toNat = a ∧ (∀ j, (h : j < bytes.length) → t.byteAt (a + j) = bytes[j]) ∧
        (∀ b, 80 ≤ b → b < 4096 → b < a ∨ a + bytes.length ≤ b → t.byteAt b = 0))

/-! ## Errors (60_exceptions.md) -/

/-- R127: which error kinds each instruction raises, with the info it carries; the decoder's and the load's kinds come from no
instruction, and InvalidDataRegister from nothing (R68). -/
def Obligations.ErrorKindsOfInstructions : Prop :=
  ∀ (i : Instr) (s : State) (f : Fault), exec i s = .fault f →
    (f = .stackUnderflow s ∧ i = .ret) ∨
    (f = .stackOverflow s ∧ ∃ nnn, i = .call nnn) ∨
    (∃ x, f = .invalidKey (s.getV x) s ∧ 0xF < (s.getV x).toNat ∧ (i = .skp x ∨ i = .sknp x)) ∨
    (∃ a t, f = .invalidMemoryAccess a t ∧
      ((∃ x y n, i = .drw x y n ∧ a = s.I.toNat ∧ 4096 < s.I.toNat + n.toNat ∧ t = s) ∨
       (∃ x, i = .ldB x ∧ ((a = s.I.toNat + 2 ∧ 4096 ≤ a) ∨ (a = s.I.toNat ∧ a < 0x200)) ∧ t = s) ∨
       (∃ x, i = .dumpRegs x ∧ (a < 0x200 ∨ 4096 ≤ a) ∧ s.I.toNat ≤ a ∧ a ≤ s.I.toNat + x.val) ∨
       (∃ x, i = .loadRegs x ∧ 4096 ≤ a ∧ s.I.toNat ≤ a ∧ a ≤ s.I.toNat + x.val)))

/-- R127: update_timers, the key events and the output reads never fail; the load's two kinds come from a load alone; no
transaction ever raises InvalidDataRegister (R68); and no transaction is refused. -/
def Obligations.ErrorKindsOfTransactions : Prop :=
  ∀ (c : Transaction) (s : State),
    (∀ f, transact c s = .fault f →
      f.code ≠ 4 ∧
      ((f.code = 6 ∨ f.code = 7) ↔ ((∃ bs, c = .loadProgram bs) ∨ (∃ bs a, c = .loadProgramToAddress bs a))) ∧
      ((f.code ≠ 6 ∧ f.code ≠ 7) → c = .cycle)) ∧
    (∀ r, transact c s ≠ .refused r)

/-- Where a failed cycle left its own word as it was, a further `cycle` fails the same way again: the same kind and info. The
spec marks this as its own inference in R132. -/
def Obligations.RetryFailsTheSameWay : Prop :=
  ∀ (s : State) (f : Fault), s.blocked = .notBlocked → transact .cycle s = .fault f →
    fetch s.pc.toNat f.after = fetch s.pc.toNat s →
    ∃ g, transact .cycle f.after = .fault g ∧ g.code = f.code ∧ g.info = f.info

/-! ## Register loads, arithmetic, logic, shifts and random (41_alu.md) -/

/-- R87 and R89: `LD Vx, kk` and `LD Vx, Vy`; VF changes only as the destination. -/
def Obligations.RegisterLoads : Prop :=
  ∀ (x y : RegId) (kk : Byte) (s : State),
    (IsWordOf (formatXK 0x6 x kk) (.ldImm x kk) ∧ ∃ t, exec (.ldImm x kk) s = .next t ∧ t.getV x = kk ∧
      RegsUnchangedBut [x] s t ∧ UnchangedBut [.regs] s t) ∧
    (IsWordOf (formatXYN 0x8 x y 0x0) (.ldReg x y) ∧ ∃ t, exec (.ldReg x y) s = .next t ∧ t.getV x = s.getV y ∧
      RegsUnchangedBut [x] s t ∧ UnchangedBut [.regs] s t)

/-- R90 to R92: OR, AND and XOR; no flag is written. -/
def Obligations.LogicOperations : Prop :=
  ∀ (x y : RegId) (s : State),
    (IsWordOf (formatXYN 0x8 x y 0x1) (.orReg x y) ∧ ∃ t, exec (.orReg x y) s = .next t ∧
      t.getV x = s.getV x ||| s.getV y ∧ RegsUnchangedBut [x] s t ∧ UnchangedBut [.regs] s t) ∧
    (IsWordOf (formatXYN 0x8 x y 0x2) (.andReg x y) ∧ ∃ t, exec (.andReg x y) s = .next t ∧
      t.getV x = s.getV x &&& s.getV y ∧ RegsUnchangedBut [x] s t ∧ UnchangedBut [.regs] s t) ∧
    (IsWordOf (formatXYN 0x8 x y 0x3) (.xorReg x y) ∧ ∃ t, exec (.xorReg x y) s = .next t ∧
      t.getV x = s.getV x ^^^ s.getV y ∧ RegsUnchangedBut [x] s t ∧ UnchangedBut [.regs] s t)

/-- R88 and R93: the additions, the sum mod 256 and the carry in VF; with x = F, VF ends as the carry,
which is the spec's decision D12 (log 7); that 7xkk writes VF is its decision D11. -/
def Obligations.AdditionsSetTheCarry : Prop :=
  ∀ (x y : RegId) (kk : Byte) (s : State),
    (IsWordOf (formatXK 0x7 x kk) (.addImm x kk) ∧ ∃ t, exec (.addImm x kk) s = .next t ∧
      (x ≠ 0xF → (t.getV x).toNat = ((s.getV x).toNat + kk.toNat) % 256) ∧
      t.getV 0xF = (if 255 < (s.getV x).toNat + kk.toNat then 1 else 0) ∧
      RegsUnchangedBut [x, 0xF] s t ∧ UnchangedBut [.regs] s t) ∧
    (IsWordOf (formatXYN 0x8 x y 0x4) (.addReg x y) ∧ ∃ t, exec (.addReg x y) s = .next t ∧
      (x ≠ 0xF → (t.getV x).toNat = ((s.getV x).toNat + (s.getV y).toNat) % 256) ∧
      t.getV 0xF = (if 255 < (s.getV x).toNat + (s.getV y).toNat then 1 else 0) ∧
      RegsUnchangedBut [x, 0xF] s t ∧ UnchangedBut [.regs] s t)

/-- R94 and R96: the subtractions, the difference mod 256 and no-borrow in VF; with x = F, VF ends as the flag,
which is the spec's decision D12 (log 7). -/
def Obligations.SubtractionsSetNoBorrow : Prop :=
  ∀ (x y : RegId) (s : State),
    (IsWordOf (formatXYN 0x8 x y 0x5) (.subReg x y) ∧ ∃ t, exec (.subReg x y) s = .next t ∧
      (x ≠ 0xF → (t.getV x).toNat = ((s.getV x).toNat + 256 - (s.getV y).toNat) % 256) ∧
      t.getV 0xF = (if (s.getV y).toNat ≤ (s.getV x).toNat then 1 else 0) ∧
      RegsUnchangedBut [x, 0xF] s t ∧ UnchangedBut [.regs] s t) ∧
    (IsWordOf (formatXYN 0x8 x y 0x7) (.subnReg x y) ∧ ∃ t, exec (.subnReg x y) s = .next t ∧
      (x ≠ 0xF → (t.getV x).toNat = ((s.getV y).toNat + 256 - (s.getV x).toNat) % 256) ∧
      t.getV 0xF = (if (s.getV x).toNat ≤ (s.getV y).toNat then 1 else 0) ∧
      RegsUnchangedBut [x, 0xF] s t ∧ UnchangedBut [.regs] s t)

/-- R95 and R97: the shifts of Vy by 1 into Vx, the bit shifted out in VF; with x = F, VF ends as the shifted
value, which is the spec's decision D12 (log 7); that the source is Vy is its decision D10. -/
def Obligations.ShiftsSetTheBitShiftedOut : Prop :=
  ∀ (x y : RegId) (s : State),
    (IsWordOf (formatXYN 0x8 x y 0x6) (.shrReg x y) ∧ ∃ t, exec (.shrReg x y) s = .next t ∧
      (t.getV x).toNat = (s.getV y).toNat / 2 ∧ (x ≠ 0xF → (t.getV 0xF).toNat = (s.getV y).toNat % 2) ∧
      RegsUnchangedBut [x, 0xF] s t ∧ UnchangedBut [.regs] s t) ∧
    (IsWordOf (formatXYN 0x8 x y 0xE) (.shlReg x y) ∧ ∃ t, exec (.shlReg x y) s = .next t ∧
      (t.getV x).toNat = (s.getV y).toNat * 2 % 256 ∧ (x ≠ 0xF → (t.getV 0xF).toNat = (s.getV y).toNat / 128) ∧
      RegsUnchangedBut [x, 0xF] s t ∧ UnchangedBut [.regs] s t)

/-- R98: `RND Vx, kk` stores a random byte AND the mask. The byte is the model's free value for this draw and the count of draws
is the model's own field (log 2); nothing is known of the byte. -/
def Obligations.RandomIsMasked : Prop :=
  ∀ (x : RegId) (kk : Byte) (s : State),
    IsWordOf (formatXK 0xC x kk) (.rnd x kk) ∧ ∃ t, exec (.rnd x kk) s = .next t ∧
      t.getV x = Config.freeDraw s.draws &&& kk ∧ t.getV x &&& ~~~kk = 0 ∧ t.draws = s.draws + 1 ∧
      RegsUnchangedBut [x] s t ∧ UnchangedBut [.regs, .draws] s t

/-! ## Control flow (42_control_flow.md) -/

/-- R100: SYS is every word 0x0nnn but CLS and RET, cleared memory among them, and has no effect: its cycle only moves `pc`
by 2. -/
def Obligations.SysHasNoEffect : Prop :=
  (∀ nnn : Addr12, nnn ≠ 0x0E0 → nnn ≠ 0x0EE → IsWordOf (formatA 0x0 nnn) (.sys nnn)) ∧
  decodeWord 0x0000 = some (.sys 0) ∧
  (∀ (nnn : Addr12) (s : State), exec (.sys nnn) s = .next s) ∧
  (∀ (w : Word) (nnn : Addr12) (s : State), s.blocked = .notBlocked → s.jump = false →
    fetch s.pc.toNat s = some w → decodeWord w = some (.sys nnn) →
    ∃ t, transact .cycle s = .next t ∧ t.pc.toNat = s.pc.toNat + 2 ∧ UnchangedBut [.pc] s t)

/-- R101: RET on an empty stack raises StackUnderflow with nothing changed; otherwise it pops the address and requests the
jump. -/
def Obligations.ReturnPops : Prop :=
  IsWordOf 0x00EE .ret ∧ ∀ s : State,
    (s.stack = [] → exec .ret s = .fault (.stackUnderflow s)) ∧
    (∀ a rest, s.stack = a :: rest → ∃ t, exec .ret s = .next t ∧ t.pc = a ∧ t.stack = rest ∧ t.jump = true ∧
      UnchangedBut [.pc, .stack, .jump] s t)

/-- R102 and R108: the jumps set `pc` to nnn, and to the exact sum nnn + V0, and request the jump; a target is not checked. -/
def Obligations.JumpsSetPc : Prop :=
  ∀ (nnn : Addr12) (s : State),
    (IsWordOf (formatA 0x1 nnn) (.jp nnn) ∧ ∃ t, exec (.jp nnn) s = .next t ∧ t.pc.toNat = nnn.toNat ∧ t.jump = true ∧
      UnchangedBut [.pc, .jump] s t) ∧
    (IsWordOf (formatA 0xB nnn) (.jpV0 nnn) ∧ ∃ t, exec (.jpV0 nnn) s = .next t ∧
      t.pc.toNat = nnn.toNat + (s.getV 0).toNat ∧ t.jump = true ∧ UnchangedBut [.pc, .jump] s t)

/-- R103: CALL pushes the address after itself and jumps; with 16 return addresses on the stack it raises StackOverflow with
nothing changed. -/
def Obligations.CallPushes : Prop :=
  ∀ (nnn : Addr12) (s : State),
    IsWordOf (formatA 0x2 nnn) (.call nnn) ∧
    (s.stack.length = 16 → exec (.call nnn) s = .fault (.stackOverflow s)) ∧
    (s.stack.length < 16 → ∃ t, exec (.call nnn) s = .next t ∧ t.stack = (s.pc + 2) :: s.stack ∧
      t.pc.toNat = nnn.toNat ∧ t.jump = true ∧ UnchangedBut [.pc, .stack, .jump] s t)

/-- A return whose stack is as the CALL left it resumes at the instruction after the CALL, not one further, with the stack of
before the CALL (R101's first corner case, the spec's decision D13). -/
def Obligations.ReturnResumesAfterTheCall : Prop :=
  ∀ (s t u : State) (w : Word) (nnn : Addr12), s.blocked = .notBlocked → fetch s.pc.toNat s = some w →
    decodeWord w = some (.call nnn) → transact .cycle s = .next t →
    u.blocked = .notBlocked → fetch u.pc.toNat u = some 0x00EE → u.stack = t.stack →
    ∃ v, transact .cycle u = .next v ∧ v.pc.toNat = s.pc.toNat + 2 ∧ v.stack = s.stack ∧ UnchangedBut [.pc, .stack, .jump] u v

/-- R104 to R107: the skips on a register's value move `pc` by 2 in Execute when their condition holds, and change nothing
else. -/
def Obligations.SkipsOnValues : Prop :=
  ∀ (x y : RegId) (kk : Byte) (s : State),
    (IsWordOf (formatXK 0x3 x kk) (.seImm x kk) ∧ ∃ t, exec (.seImm x kk) s = .next t ∧
      t.pc = (if s.getV x = kk then s.pc + 2 else s.pc) ∧ UnchangedBut [.pc] s t) ∧
    (IsWordOf (formatXK 0x4 x kk) (.sneImm x kk) ∧ ∃ t, exec (.sneImm x kk) s = .next t ∧
      t.pc = (if s.getV x = kk then s.pc else s.pc + 2) ∧ UnchangedBut [.pc] s t) ∧
    (IsWordOf (formatXYN 0x5 x y 0x0) (.seReg x y) ∧ ∃ t, exec (.seReg x y) s = .next t ∧
      t.pc = (if s.getV x = s.getV y then s.pc + 2 else s.pc) ∧ UnchangedBut [.pc] s t) ∧
    (IsWordOf (formatXYN 0x9 x y 0x0) (.sneReg x y) ∧ ∃ t, exec (.sneReg x y) s = .next t ∧
      t.pc = (if s.getV x = s.getV y then s.pc else s.pc + 2) ∧ UnchangedBut [.pc] s t)

/-! ## Framebuffer, keyboard and timers (43_display_input_timers.md) -/

/-- R112 with R110: CLS sets every pixel Off and `dirty`, and changes nothing else. -/
def Obligations.ClearScreen : Prop :=
  IsWordOf 0x00E0 .cls ∧ ∀ s : State, ∃ t, exec .cls s = .next t ∧ (∀ u v, t.pixel u v = .off) ∧ t.dirty = true ∧
    UnchangedBut [.pixels, .dirty] s t

/-- R113 with R111: DRW fails with I and nothing changed if its rows pass the end of memory; otherwise every pixel of the sprite,
wrapped in both coordinates, is XORed, every other pixel stays, VF is 1 exactly if an On pixel became Off, and `dirty` is set
unless n = 0. That a collision is an On pixel under a set bit (R111) and that no pixel is touched twice (R113) are inferences the
spec marks as its own. -/
def Obligations.DrawSprite : Prop :=
  ∀ (x y : RegId) (n : Nibble) (s : State),
    let px := fun c : Nat => Fin.ofNat 64 ((s.getV x).toNat + c)
    let py := fun r : Nat => Fin.ofNat 32 ((s.getV y).toNat + r)
    let bit := fun r c : Nat => (s.byteAt (s.I.toNat + r)).getLsbD (7 - c)
    IsWordOf (formatXYN 0xD x y n) (.drw x y n) ∧
    (4096 < s.I.toNat + n.toNat → exec (.drw x y n) s = .fault (.invalidMemoryAccess s.I.toNat s)) ∧
    (s.I.toNat + n.toNat ≤ 4096 → ∃ t, exec (.drw x y n) s = .next t ∧
      (∀ r c, r < n.toNat → c < 8 → (t.pixel (px c) (py r) = .on ↔ ¬(s.pixel (px c) (py r) = .on ↔ bit r c = true))) ∧
      (∀ u v, (∀ r c, r < n.toNat → c < 8 → ¬(px c = u ∧ py r = v)) → t.pixel u v = s.pixel u v) ∧
      (t.getV 0xF = 0 ∨ t.getV 0xF = 1) ∧
      (t.getV 0xF = 1 ↔ ∃ r c, r < n.toNat ∧ c < 8 ∧ s.pixel (px c) (py r) = .on ∧ bit r c = true) ∧
      (t.dirty = if n = 0 then s.dirty else true) ∧
      RegsUnchangedBut [0xF] s t ∧ UnchangedBut [.regs, .pixels, .dirty] s t)

/-- A sprite drawn twice at one place restores every pixel; on a clear screen the first draw reports no collision and the second
one reports a collision exactly if the sprite has an On pixel (R113's example, 95_test_vectors.md E2). Where x or y is F the second draw is elsewhere, and
DrawSprite says what each does. -/
def Obligations.DrawingTwiceErases : Prop :=
  ∀ (x y : RegId) (n : Nibble) (s t u : State), x ≠ 0xF → y ≠ 0xF →
    exec (.drw x y n) s = .next t → exec (.drw x y n) t = .next u →
    (∀ p q, u.pixel p q = s.pixel p q) ∧
    ((∀ p q, s.pixel p q = .off) → t.getV 0xF = 0 ∧
      (u.getV 0xF = 1 ↔ ∃ r c, r < n.toNat ∧ c < 8 ∧ (s.byteAt (s.I.toNat + r)).getLsbD (7 - c) = true))

/-- Where a draw succeeds, drawing at a column 64 further, and drawing at a row 32 further, succeeds too and is the same draw:
every pixel, VF and `dirty` (R113's corner case, 95_test_vectors.md E3). -/
def Obligations.DrawingWrapsAround : Prop :=
  ∀ (x y : RegId) (n : Nibble) (s t : State), exec (.drw x y n) s = .next t →
    (∃ t', exec (.drw x y n) (s.setV x (s.getV x + 64)) = .next t' ∧ (∀ p q, t'.pixel p q = t.pixel p q) ∧
      t'.getV 0xF = t.getV 0xF ∧ t'.dirty = t.dirty) ∧
    (x ≠ y → ∃ t', exec (.drw x y n) (s.setV y (s.getV y + 32)) = .next t' ∧ (∀ p q, t'.pixel p q = t.pixel p q) ∧
      t'.getV 0xF = t.getV 0xF ∧ t'.dirty = t.dirty)

/-- R114 to R116: the skips on a key; a register value above 0xF raises InvalidKey with nothing changed. -/
def Obligations.SkipsOnKeys : Prop :=
  ∀ (x : RegId) (s : State),
    IsWordOf (formatXK 0xE x 0x9E) (.skp x) ∧ IsWordOf (formatXK 0xE x 0xA1) (.sknp x) ∧
    (0xF < (s.getV x).toNat → exec (.skp x) s = .fault (.invalidKey (s.getV x) s) ∧
      exec (.sknp x) s = .fault (.invalidKey (s.getV x) s)) ∧
    (∀ k : KeyId, (s.getV x).toNat = k.val →
      (∃ t, exec (.skp x) s = .next t ∧ t.pc = (if s.getKey k = .pressed then s.pc + 2 else s.pc) ∧
        UnchangedBut [.pc] s t) ∧
      (∃ t, exec (.sknp x) s = .next t ∧ t.pc = (if s.getKey k = .released then s.pc + 2 else s.pc) ∧
        UnchangedBut [.pc] s t))

/-- R117, R119 and R120: the timer instructions. -/
def Obligations.TimerInstructions : Prop :=
  ∀ (x : RegId) (s : State),
    (IsWordOf (formatXK 0xF x 0x07) (.ldVxDT x) ∧ ∃ t, exec (.ldVxDT x) s = .next t ∧ t.getV x = s.DT ∧
      RegsUnchangedBut [x] s t ∧ UnchangedBut [.regs] s t) ∧
    (IsWordOf (formatXK 0xF x 0x15) (.ldDTVx x) ∧ ∃ t, exec (.ldDTVx x) s = .next t ∧ t.DT = s.getV x ∧
      UnchangedBut [.delay] s t) ∧
    (IsWordOf (formatXK 0xF x 0x18) (.ldSTVx x) ∧ ∃ t, exec (.ldSTVx x) s = .next t ∧ t.ST = s.getV x ∧
      UnchangedBut [.sound] s t)

/-- Fx0A blocks the core and writes no register (R118); its own cycle still moves `pc` by 2; and the release of a key then writes
the code and lets the core go on there. The last two are R118's corner case, which the spec marks as its own inference from R73,
R75 and R79. -/
def Obligations.WaitForKey : Prop :=
  ∀ (x : RegId) (s : State),
    (IsWordOf (formatXK 0xF x 0x0A) (.ldVxK x) ∧ ∃ t, exec (.ldVxK x) s = .next t ∧ t.blocked = .waitingKey x ∧
      UnchangedBut [.blocked] s t) ∧
    (∀ w, s.blocked = .notBlocked → s.jump = false → fetch s.pc.toNat s = some w →
      decodeWord w = some (.ldVxK x) →
      ∃ t, transact .cycle s = .next t ∧ t.blocked = .waitingKey x ∧ t.pc.toNat = s.pc.toNat + 2 ∧ UnchangedBut [.blocked, .pc] s t ∧
        ∀ k : KeyId, ∃ u, transact (.keyUp k) t = .next u ∧ (u.getV x).toNat = k.val ∧ u.blocked = .notBlocked ∧
          u.pc = t.pc)

/-! ## Address register, BCD and block transfer (44_index_memory.md) -/

/-- R121 to R123: the instructions that write I; none writes VF. -/
def Obligations.AddressRegisterWrites : Prop :=
  ∀ (x : RegId) (nnn : Addr12) (s : State),
    (IsWordOf (formatA 0xA nnn) (.ldI nnn) ∧ ∃ t, exec (.ldI nnn) s = .next t ∧ t.I.toNat = nnn.toNat ∧
      UnchangedBut [.index] s t) ∧
    (IsWordOf (formatXK 0xF x 0x1E) (.addI x) ∧ ∃ t, exec (.addI x) s = .next t ∧
      t.I.toNat = (s.I.toNat + (s.getV x).toNat) % 2 ^ 64 ∧ UnchangedBut [.index] s t) ∧
    (IsWordOf (formatXK 0xF x 0x29) (.ldF x) ∧ ∃ t, exec (.ldF x) s = .next t ∧ t.I.toNat = 5 * (s.getV x).toNat ∧
      UnchangedBut [.index] s t)

/-- R124: BCD. The bounds check comes first and reports I + 2, then the protection check, which reports I; neither writes a byte;
otherwise the three digits are stored from I on and no other byte changes. -/
def Obligations.BcdStore : Prop :=
  ∀ (x : RegId) (s : State), Memory.wf s.mem →
    IsWordOf (formatXK 0xF x 0x33) (.ldB x) ∧
    (4096 ≤ s.I.toNat + 2 → exec (.ldB x) s = .fault (.invalidMemoryAccess (s.I.toNat + 2) s)) ∧
    (s.I.toNat + 2 < 4096 → s.I.toNat < 0x200 → exec (.ldB x) s = .fault (.invalidMemoryAccess s.I.toNat s)) ∧
    (s.I.toNat + 2 < 4096 → 0x200 ≤ s.I.toNat → ∃ t, exec (.ldB x) s = .next t ∧
      (t.byteAt s.I.toNat).toNat = (s.getV x).toNat / 100 ∧
      (t.byteAt (s.I.toNat + 1)).toNat = (s.getV x).toNat / 10 % 10 ∧
      (t.byteAt (s.I.toNat + 2)).toNat = (s.getV x).toNat % 10 ∧
      BytesUnchangedOutside s.I.toNat 3 s t ∧ UnchangedBut [.memory] s t)

/-- R125: block dump. V0..Vx go to I..I + x; a first address that is protected fails with nothing written; past the end of
memory the registers that fit stay written and the first address that does not is reported. I never changes. -/
def Obligations.BlockDump : Prop :=
  ∀ (x : RegId) (s : State), Memory.wf s.mem →
    IsWordOf (formatXK 0xF x 0x55) (.dumpRegs x) ∧
    (s.I.toNat < 0x200 → exec (.dumpRegs x) s = .fault (.invalidMemoryAccess s.I.toNat s)) ∧
    (0x200 ≤ s.I.toNat → 4096 ≤ s.I.toNat + x.val → ∃ t,
      exec (.dumpRegs x) s = .fault (.invalidMemoryAccess (max s.I.toNat 4096) t) ∧
      (∀ r : RegId, s.I.toNat + r.val < 4096 → t.byteAt (s.I.toNat + r.val) = s.getV r) ∧
      BytesUnchangedOutside s.I.toNat (4096 - s.I.toNat) s t ∧ UnchangedBut [.memory] s t) ∧
    (0x200 ≤ s.I.toNat → s.I.toNat + x.val < 4096 → ∃ t, exec (.dumpRegs x) s = .next t ∧
      (∀ r : RegId, r ≤ x → t.byteAt (s.I.toNat + r.val) = s.getV r) ∧
      BytesUnchangedOutside s.I.toNat (x.val + 1) s t ∧ UnchangedBut [.memory] s t)

/-- R126: block load. V0..Vx come from I..I + x, the protected region included; past the end of memory the registers loaded
before stay loaded and the first address that does not exist is reported. I never changes. -/
def Obligations.BlockLoad : Prop :=
  ∀ (x : RegId) (s : State),
    IsWordOf (formatXK 0xF x 0x65) (.loadRegs x) ∧
    (4096 ≤ s.I.toNat + x.val → ∃ t, exec (.loadRegs x) s = .fault (.invalidMemoryAccess (max s.I.toNat 4096) t) ∧
      (∀ r : RegId, t.getV r = if s.I.toNat + r.val < 4096 then s.byteAt (s.I.toNat + r.val) else s.getV r) ∧
      UnchangedBut [.regs] s t) ∧
    (s.I.toNat + x.val < 4096 → ∃ t, exec (.loadRegs x) s = .next t ∧
      (∀ r : RegId, t.getV r = if r ≤ x then s.byteAt (s.I.toNat + r.val) else s.getV r) ∧ UnchangedBut [.regs] s t)

/-- R126's round trip: a block load with the x and I of a block dump, on the memory the dump left, restores V0..Vx whatever the
registers held in between, for every x. -/
def Obligations.DumpThenLoadRestores : Prop :=
  ∀ (x : RegId) (s t u : State), Memory.wf s.mem → exec (.dumpRegs x) s = .next t →
    (∀ a, u.byteAt a = t.byteAt a) → u.I = s.I →
    ∃ v, exec (.loadRegs x) u = .next v ∧ ∀ r, r ≤ x → v.getV r = s.getV r

/-! ## Whole-machine rules -/

/-- Every instruction, whether it succeeds or fails, leaves every part of the state but those the rules say it writes, and every
register but its destinations and, for the seven flag writers, VF, and every byte of memory but the three from I on for Fx33 and
the x + 1 from I on for Fx55 (R17, R18, R21, R23 to R30, R42). -/
def Obligations.InstructionsWriteOnlyTheirOwn : Prop :=
  ∀ (i : Instr) (s t : State), Leaves (exec i s) t →
    UnchangedBut (partsWritten i) s t ∧ (∀ r, ¬ writesReg i r → t.getV r = s.getV r) ∧
    (∀ x, i = .ldB x → BytesUnchangedOutside s.I.toNat 3 s t) ∧
    (∀ x, i = .dumpRegs x → BytesUnchangedOutside s.I.toNat (x.val + 1) s t)

/-- No cycle, successful or failed, changes a byte of the protected region, so the font is constant from a load to the next reset:
an inference the spec marks as its own in R55. -/
def Obligations.CyclesNeverChangeTheProtectedRegion : Prop :=
  ∀ (s t : State), Leaves (transact .cycle s) t → ∀ a, a < 0x200 → t.byteAt a = s.byteAt a

/-- Whatever Fx55, Fx33 or a program load stores is what every later fetch reads, with nothing in between: at every address that
can be fetched at, the word is big-endian of the stored bytes where there are such, and of the bytes of before elsewhere (after a
load those are zeros). A block dump that fails past the end of memory is fetched as far as it went (R58, an inference the spec
marks as its own). -/
def Obligations.StoresAreFetched : Prop :=
  (∀ (x : RegId) (s t : State), Memory.wf s.mem → 0x200 ≤ s.I.toNat → Leaves (exec (.dumpRegs x) s) t →
    FetchSees s.I.toNat ((List.range (x.val + 1)).map fun r => s.getV (Fin.ofNat 16 r)) s t) ∧
  (∀ (x : RegId) (s t : State), Memory.wf s.mem → exec (.ldB x) s = .next t →
    FetchSees s.I.toNat
      ([(s.getV x).toNat / 100, (s.getV x).toNat / 10 % 10, (s.getV x).toNat % 10].map (BitVec.ofNat 8)) s t) ∧
  (∀ (bytes : List Byte) (a : Nat) (s t : State), transact (.loadProgramToAddress bytes a) s = .next t →
    FetchSees a bytes State.reset t)

/-- The invariant: every transaction, whichever the host calls and whether it returns Ok or Err, keeps the memory's canonical
form and size, the stack's bound and its return addresses, the bound on `pc`, `jump` at 0, and the protected region as a load or
power-on left it (R21, R24, R30, R31, R55, R101). -/
def Obligations.EveryStepKeepsTheInvariant : Prop := ∀ s t : State, Inv s → Leaves (step s) t → Inv t

/-- The very next step after `withFetchWord` runs the instruction the decoder reads from the word, from every state whose memory
is canonical, blocked or not and wherever its `pc` points; the memory stays canonical. The placing is the model's own (log 4). -/
def Obligations.PlacedWordRunsNext : Prop :=
  ∀ (s : State) (w : Nat) (i : Instr), Memory.wf s.mem → decodeTableWord 16 w = some i →
    step (s.withFetchWord 16 w) = finishCycle (exec i (s.withFetchWord 16 w)) ∧ Memory.wf (s.withFetchWord 16 w).mem

/-- The two fields of the model's own (logs 2 and 3): no transaction changes the calls the host has still to make, and only a
cycle that runs Cxkk changes the count of random draws, by 1; a program load leaves both. -/
def Obligations.TransactionsLeaveTheModelsOwnFields : Prop :=
  ∀ (c : Transaction) (s t : State), Leaves (transact c s) t →
    t.hostCalls = s.hostCalls ∧
    (t.draws = s.draws ∨
      (t.draws = s.draws + 1 ∧ c = .cycle ∧ s.blocked = .notBlocked ∧
        ∃ w x kk, fetch s.pc.toNat s = some w ∧ decodeWord w = some (.rnd x kk)))
end

