-- ==== Sys2Proof/Laws/State.lean ====
section
/-! SUPPORT. The fields and the reads of a state after each named update: one lemma per field per update. -/

namespace Sys2Proof.Machine.State

variable (s : State)

/-! ### setV -/

@[simp] theorem setV_V (x : RegId) (b : Byte) : (s.setV x b).V = s.V.set x b := rfl
@[simp] theorem setV_I (x : RegId) (b : Byte) : (s.setV x b).I = s.I := rfl
@[simp] theorem setV_pc (x : RegId) (b : Byte) : (s.setV x b).pc = s.pc := rfl
@[simp] theorem setV_stack (x : RegId) (b : Byte) : (s.setV x b).stack = s.stack := rfl
@[simp] theorem setV_DT (x : RegId) (b : Byte) : (s.setV x b).DT = s.DT := rfl
@[simp] theorem setV_ST (x : RegId) (b : Byte) : (s.setV x b).ST = s.ST := rfl
@[simp] theorem setV_mem (x : RegId) (b : Byte) : (s.setV x b).mem = s.mem := rfl
@[simp] theorem setV_pix (x : RegId) (b : Byte) : (s.setV x b).pix = s.pix := rfl
@[simp] theorem setV_dirty (x : RegId) (b : Byte) : (s.setV x b).dirty = s.dirty := rfl
@[simp] theorem setV_key (x : RegId) (b : Byte) : (s.setV x b).key = s.key := rfl
@[simp] theorem setV_blocked (x : RegId) (b : Byte) : (s.setV x b).blocked = s.blocked := rfl
@[simp] theorem setV_jump (x : RegId) (b : Byte) : (s.setV x b).jump = s.jump := rfl
@[simp] theorem setV_draws (x : RegId) (b : Byte) : (s.setV x b).draws = s.draws := rfl
@[simp] theorem setV_hostCalls (x : RegId) (b : Byte) : (s.setV x b).hostCalls = s.hostCalls := rfl
@[simp] theorem setV_getKey (x : RegId) (b : Byte) (j : KeyId) : (s.setV x b).getKey j = s.getKey j := rfl
@[simp] theorem setV_pixel (x : RegId) (b : Byte) (u : Fin Config.screenW) (w : Fin Config.screenH) : (s.setV x b).pixel u w = s.pixel u w := rfl
@[simp] theorem setV_byteAt (x : RegId) (b : Byte) (n : Nat) : (s.setV x b).byteAt n = s.byteAt n := rfl

/-! ### setFlag -/

@[simp] theorem setFlag_V (f : Byte) : (s.setFlag f).V = s.V.set flagReg f := rfl
@[simp] theorem setFlag_I (f : Byte) : (s.setFlag f).I = s.I := rfl
@[simp] theorem setFlag_pc (f : Byte) : (s.setFlag f).pc = s.pc := rfl
@[simp] theorem setFlag_stack (f : Byte) : (s.setFlag f).stack = s.stack := rfl
@[simp] theorem setFlag_DT (f : Byte) : (s.setFlag f).DT = s.DT := rfl
@[simp] theorem setFlag_ST (f : Byte) : (s.setFlag f).ST = s.ST := rfl
@[simp] theorem setFlag_mem (f : Byte) : (s.setFlag f).mem = s.mem := rfl
@[simp] theorem setFlag_pix (f : Byte) : (s.setFlag f).pix = s.pix := rfl
@[simp] theorem setFlag_dirty (f : Byte) : (s.setFlag f).dirty = s.dirty := rfl
@[simp] theorem setFlag_key (f : Byte) : (s.setFlag f).key = s.key := rfl
@[simp] theorem setFlag_blocked (f : Byte) : (s.setFlag f).blocked = s.blocked := rfl
@[simp] theorem setFlag_jump (f : Byte) : (s.setFlag f).jump = s.jump := rfl
@[simp] theorem setFlag_draws (f : Byte) : (s.setFlag f).draws = s.draws := rfl
@[simp] theorem setFlag_hostCalls (f : Byte) : (s.setFlag f).hostCalls = s.hostCalls := rfl
@[simp] theorem setFlag_getKey (f : Byte) (j : KeyId) : (s.setFlag f).getKey j = s.getKey j := rfl
@[simp] theorem setFlag_pixel (f : Byte) (u : Fin Config.screenW) (w : Fin Config.screenH) : (s.setFlag f).pixel u w = s.pixel u w := rfl
@[simp] theorem setFlag_byteAt (f : Byte) (n : Nat) : (s.setFlag f).byteAt n = s.byteAt n := rfl

/-! ### resultThenFlag -/

@[simp] theorem resultThenFlag_V (x : RegId) (r f : Byte) : (s.resultThenFlag x r f).V = (s.V.set x r).set flagReg f := rfl
@[simp] theorem resultThenFlag_I (x : RegId) (r f : Byte) : (s.resultThenFlag x r f).I = s.I := rfl
@[simp] theorem resultThenFlag_pc (x : RegId) (r f : Byte) : (s.resultThenFlag x r f).pc = s.pc := rfl
@[simp] theorem resultThenFlag_stack (x : RegId) (r f : Byte) : (s.resultThenFlag x r f).stack = s.stack := rfl
@[simp] theorem resultThenFlag_DT (x : RegId) (r f : Byte) : (s.resultThenFlag x r f).DT = s.DT := rfl
@[simp] theorem resultThenFlag_ST (x : RegId) (r f : Byte) : (s.resultThenFlag x r f).ST = s.ST := rfl
@[simp] theorem resultThenFlag_mem (x : RegId) (r f : Byte) : (s.resultThenFlag x r f).mem = s.mem := rfl
@[simp] theorem resultThenFlag_pix (x : RegId) (r f : Byte) : (s.resultThenFlag x r f).pix = s.pix := rfl
@[simp] theorem resultThenFlag_dirty (x : RegId) (r f : Byte) : (s.resultThenFlag x r f).dirty = s.dirty := rfl
@[simp] theorem resultThenFlag_key (x : RegId) (r f : Byte) : (s.resultThenFlag x r f).key = s.key := rfl
@[simp] theorem resultThenFlag_blocked (x : RegId) (r f : Byte) : (s.resultThenFlag x r f).blocked = s.blocked := rfl
@[simp] theorem resultThenFlag_jump (x : RegId) (r f : Byte) : (s.resultThenFlag x r f).jump = s.jump := rfl
@[simp] theorem resultThenFlag_draws (x : RegId) (r f : Byte) : (s.resultThenFlag x r f).draws = s.draws := rfl
@[simp] theorem resultThenFlag_hostCalls (x : RegId) (r f : Byte) : (s.resultThenFlag x r f).hostCalls = s.hostCalls := rfl
@[simp] theorem resultThenFlag_getKey (x : RegId) (r f : Byte) (j : KeyId) : (s.resultThenFlag x r f).getKey j = s.getKey j := rfl
@[simp] theorem resultThenFlag_pixel (x : RegId) (r f : Byte) (u : Fin Config.screenW) (w : Fin Config.screenH) : (s.resultThenFlag x r f).pixel u w = s.pixel u w := rfl
@[simp] theorem resultThenFlag_byteAt (x : RegId) (r f : Byte) (n : Nat) : (s.resultThenFlag x r f).byteAt n = s.byteAt n := rfl

/-! ### flagThenResult -/

@[simp] theorem flagThenResult_V (x : RegId) (f r : Byte) : (s.flagThenResult x f r).V = (s.V.set flagReg f).set x r := rfl
@[simp] theorem flagThenResult_I (x : RegId) (f r : Byte) : (s.flagThenResult x f r).I = s.I := rfl
@[simp] theorem flagThenResult_pc (x : RegId) (f r : Byte) : (s.flagThenResult x f r).pc = s.pc := rfl
@[simp] theorem flagThenResult_stack (x : RegId) (f r : Byte) : (s.flagThenResult x f r).stack = s.stack := rfl
@[simp] theorem flagThenResult_DT (x : RegId) (f r : Byte) : (s.flagThenResult x f r).DT = s.DT := rfl
@[simp] theorem flagThenResult_ST (x : RegId) (f r : Byte) : (s.flagThenResult x f r).ST = s.ST := rfl
@[simp] theorem flagThenResult_mem (x : RegId) (f r : Byte) : (s.flagThenResult x f r).mem = s.mem := rfl
@[simp] theorem flagThenResult_pix (x : RegId) (f r : Byte) : (s.flagThenResult x f r).pix = s.pix := rfl
@[simp] theorem flagThenResult_dirty (x : RegId) (f r : Byte) : (s.flagThenResult x f r).dirty = s.dirty := rfl
@[simp] theorem flagThenResult_key (x : RegId) (f r : Byte) : (s.flagThenResult x f r).key = s.key := rfl
@[simp] theorem flagThenResult_blocked (x : RegId) (f r : Byte) : (s.flagThenResult x f r).blocked = s.blocked := rfl
@[simp] theorem flagThenResult_jump (x : RegId) (f r : Byte) : (s.flagThenResult x f r).jump = s.jump := rfl
@[simp] theorem flagThenResult_draws (x : RegId) (f r : Byte) : (s.flagThenResult x f r).draws = s.draws := rfl
@[simp] theorem flagThenResult_hostCalls (x : RegId) (f r : Byte) : (s.flagThenResult x f r).hostCalls = s.hostCalls := rfl
@[simp] theorem flagThenResult_getKey (x : RegId) (f r : Byte) (j : KeyId) : (s.flagThenResult x f r).getKey j = s.getKey j := rfl
@[simp] theorem flagThenResult_pixel (x : RegId) (f r : Byte) (u : Fin Config.screenW) (w : Fin Config.screenH) : (s.flagThenResult x f r).pixel u w = s.pixel u w := rfl
@[simp] theorem flagThenResult_byteAt (x : RegId) (f r : Byte) (n : Nat) : (s.flagThenResult x f r).byteAt n = s.byteAt n := rfl

/-! ### setI -/

@[simp] theorem setI_V (a : AddrReg) : (s.setI a).V = s.V := rfl
@[simp] theorem setI_I (a : AddrReg) : (s.setI a).I = a := rfl
@[simp] theorem setI_pc (a : AddrReg) : (s.setI a).pc = s.pc := rfl
@[simp] theorem setI_stack (a : AddrReg) : (s.setI a).stack = s.stack := rfl
@[simp] theorem setI_DT (a : AddrReg) : (s.setI a).DT = s.DT := rfl
@[simp] theorem setI_ST (a : AddrReg) : (s.setI a).ST = s.ST := rfl
@[simp] theorem setI_mem (a : AddrReg) : (s.setI a).mem = s.mem := rfl
@[simp] theorem setI_pix (a : AddrReg) : (s.setI a).pix = s.pix := rfl
@[simp] theorem setI_dirty (a : AddrReg) : (s.setI a).dirty = s.dirty := rfl
@[simp] theorem setI_key (a : AddrReg) : (s.setI a).key = s.key := rfl
@[simp] theorem setI_blocked (a : AddrReg) : (s.setI a).blocked = s.blocked := rfl
@[simp] theorem setI_jump (a : AddrReg) : (s.setI a).jump = s.jump := rfl
@[simp] theorem setI_draws (a : AddrReg) : (s.setI a).draws = s.draws := rfl
@[simp] theorem setI_hostCalls (a : AddrReg) : (s.setI a).hostCalls = s.hostCalls := rfl
@[simp] theorem setI_getV (a : AddrReg) (r : RegId) : (s.setI a).getV r = s.getV r := rfl
@[simp] theorem setI_getKey (a : AddrReg) (j : KeyId) : (s.setI a).getKey j = s.getKey j := rfl
@[simp] theorem setI_pixel (a : AddrReg) (u : Fin Config.screenW) (w : Fin Config.screenH) : (s.setI a).pixel u w = s.pixel u w := rfl
@[simp] theorem setI_byteAt (a : AddrReg) (n : Nat) : (s.setI a).byteAt n = s.byteAt n := rfl

/-! ### setPc -/

@[simp] theorem setPc_V (a : Word) : (s.setPc a).V = s.V := rfl
@[simp] theorem setPc_I (a : Word) : (s.setPc a).I = s.I := rfl
@[simp] theorem setPc_pc (a : Word) : (s.setPc a).pc = a := rfl
@[simp] theorem setPc_stack (a : Word) : (s.setPc a).stack = s.stack := rfl
@[simp] theorem setPc_DT (a : Word) : (s.setPc a).DT = s.DT := rfl
@[simp] theorem setPc_ST (a : Word) : (s.setPc a).ST = s.ST := rfl
@[simp] theorem setPc_mem (a : Word) : (s.setPc a).mem = s.mem := rfl
@[simp] theorem setPc_pix (a : Word) : (s.setPc a).pix = s.pix := rfl
@[simp] theorem setPc_dirty (a : Word) : (s.setPc a).dirty = s.dirty := rfl
@[simp] theorem setPc_key (a : Word) : (s.setPc a).key = s.key := rfl
@[simp] theorem setPc_blocked (a : Word) : (s.setPc a).blocked = s.blocked := rfl
@[simp] theorem setPc_jump (a : Word) : (s.setPc a).jump = s.jump := rfl
@[simp] theorem setPc_draws (a : Word) : (s.setPc a).draws = s.draws := rfl
@[simp] theorem setPc_hostCalls (a : Word) : (s.setPc a).hostCalls = s.hostCalls := rfl
@[simp] theorem setPc_getV (a : Word) (r : RegId) : (s.setPc a).getV r = s.getV r := rfl
@[simp] theorem setPc_getKey (a : Word) (j : KeyId) : (s.setPc a).getKey j = s.getKey j := rfl
@[simp] theorem setPc_pixel (a : Word) (u : Fin Config.screenW) (w : Fin Config.screenH) : (s.setPc a).pixel u w = s.pixel u w := rfl
@[simp] theorem setPc_byteAt (a : Word) (n : Nat) : (s.setPc a).byteAt n = s.byteAt n := rfl

/-! ### advancePc -/

@[simp] theorem advancePc_V : (s.advancePc).V = s.V := rfl
@[simp] theorem advancePc_I : (s.advancePc).I = s.I := rfl
@[simp] theorem advancePc_pc : (s.advancePc).pc = s.pc + instrBytes := rfl
@[simp] theorem advancePc_stack : (s.advancePc).stack = s.stack := rfl
@[simp] theorem advancePc_DT : (s.advancePc).DT = s.DT := rfl
@[simp] theorem advancePc_ST : (s.advancePc).ST = s.ST := rfl
@[simp] theorem advancePc_mem : (s.advancePc).mem = s.mem := rfl
@[simp] theorem advancePc_pix : (s.advancePc).pix = s.pix := rfl
@[simp] theorem advancePc_dirty : (s.advancePc).dirty = s.dirty := rfl
@[simp] theorem advancePc_key : (s.advancePc).key = s.key := rfl
@[simp] theorem advancePc_blocked : (s.advancePc).blocked = s.blocked := rfl
@[simp] theorem advancePc_jump : (s.advancePc).jump = s.jump := rfl
@[simp] theorem advancePc_draws : (s.advancePc).draws = s.draws := rfl
@[simp] theorem advancePc_hostCalls : (s.advancePc).hostCalls = s.hostCalls := rfl
@[simp] theorem advancePc_getV (r : RegId) : (s.advancePc).getV r = s.getV r := rfl
@[simp] theorem advancePc_getKey (j : KeyId) : (s.advancePc).getKey j = s.getKey j := rfl
@[simp] theorem advancePc_pixel (u : Fin Config.screenW) (w : Fin Config.screenH) : (s.advancePc).pixel u w = s.pixel u w := rfl
@[simp] theorem advancePc_byteAt (n : Nat) : (s.advancePc).byteAt n = s.byteAt n := rfl

/-! ### jumpTo -/

@[simp] theorem jumpTo_V (a : Word) : (s.jumpTo a).V = s.V := rfl
@[simp] theorem jumpTo_I (a : Word) : (s.jumpTo a).I = s.I := rfl
@[simp] theorem jumpTo_pc (a : Word) : (s.jumpTo a).pc = a := rfl
@[simp] theorem jumpTo_stack (a : Word) : (s.jumpTo a).stack = s.stack := rfl
@[simp] theorem jumpTo_DT (a : Word) : (s.jumpTo a).DT = s.DT := rfl
@[simp] theorem jumpTo_ST (a : Word) : (s.jumpTo a).ST = s.ST := rfl
@[simp] theorem jumpTo_mem (a : Word) : (s.jumpTo a).mem = s.mem := rfl
@[simp] theorem jumpTo_pix (a : Word) : (s.jumpTo a).pix = s.pix := rfl
@[simp] theorem jumpTo_dirty (a : Word) : (s.jumpTo a).dirty = s.dirty := rfl
@[simp] theorem jumpTo_key (a : Word) : (s.jumpTo a).key = s.key := rfl
@[simp] theorem jumpTo_blocked (a : Word) : (s.jumpTo a).blocked = s.blocked := rfl
@[simp] theorem jumpTo_jump (a : Word) : (s.jumpTo a).jump = true := rfl
@[simp] theorem jumpTo_draws (a : Word) : (s.jumpTo a).draws = s.draws := rfl
@[simp] theorem jumpTo_hostCalls (a : Word) : (s.jumpTo a).hostCalls = s.hostCalls := rfl
@[simp] theorem jumpTo_getV (a : Word) (r : RegId) : (s.jumpTo a).getV r = s.getV r := rfl
@[simp] theorem jumpTo_getKey (a : Word) (j : KeyId) : (s.jumpTo a).getKey j = s.getKey j := rfl
@[simp] theorem jumpTo_pixel (a : Word) (u : Fin Config.screenW) (w : Fin Config.screenH) : (s.jumpTo a).pixel u w = s.pixel u w := rfl
@[simp] theorem jumpTo_byteAt (a : Word) (n : Nat) : (s.jumpTo a).byteAt n = s.byteAt n := rfl

/-! ### clearJump -/

@[simp] theorem clearJump_V : (s.clearJump).V = s.V := rfl
@[simp] theorem clearJump_I : (s.clearJump).I = s.I := rfl
@[simp] theorem clearJump_pc : (s.clearJump).pc = s.pc := rfl
@[simp] theorem clearJump_stack : (s.clearJump).stack = s.stack := rfl
@[simp] theorem clearJump_DT : (s.clearJump).DT = s.DT := rfl
@[simp] theorem clearJump_ST : (s.clearJump).ST = s.ST := rfl
@[simp] theorem clearJump_mem : (s.clearJump).mem = s.mem := rfl
@[simp] theorem clearJump_pix : (s.clearJump).pix = s.pix := rfl
@[simp] theorem clearJump_dirty : (s.clearJump).dirty = s.dirty := rfl
@[simp] theorem clearJump_key : (s.clearJump).key = s.key := rfl
@[simp] theorem clearJump_blocked : (s.clearJump).blocked = s.blocked := rfl
@[simp] theorem clearJump_jump : (s.clearJump).jump = false := rfl
@[simp] theorem clearJump_draws : (s.clearJump).draws = s.draws := rfl
@[simp] theorem clearJump_hostCalls : (s.clearJump).hostCalls = s.hostCalls := rfl
@[simp] theorem clearJump_getV (r : RegId) : (s.clearJump).getV r = s.getV r := rfl
@[simp] theorem clearJump_getKey (j : KeyId) : (s.clearJump).getKey j = s.getKey j := rfl
@[simp] theorem clearJump_pixel (u : Fin Config.screenW) (w : Fin Config.screenH) : (s.clearJump).pixel u w = s.pixel u w := rfl
@[simp] theorem clearJump_byteAt (n : Nat) : (s.clearJump).byteAt n = s.byteAt n := rfl

/-! ### setDT -/

@[simp] theorem setDT_V (b : Byte) : (s.setDT b).V = s.V := rfl
@[simp] theorem setDT_I (b : Byte) : (s.setDT b).I = s.I := rfl
@[simp] theorem setDT_pc (b : Byte) : (s.setDT b).pc = s.pc := rfl
@[simp] theorem setDT_stack (b : Byte) : (s.setDT b).stack = s.stack := rfl
@[simp] theorem setDT_DT (b : Byte) : (s.setDT b).DT = b := rfl
@[simp] theorem setDT_ST (b : Byte) : (s.setDT b).ST = s.ST := rfl
@[simp] theorem setDT_mem (b : Byte) : (s.setDT b).mem = s.mem := rfl
@[simp] theorem setDT_pix (b : Byte) : (s.setDT b).pix = s.pix := rfl
@[simp] theorem setDT_dirty (b : Byte) : (s.setDT b).dirty = s.dirty := rfl
@[simp] theorem setDT_key (b : Byte) : (s.setDT b).key = s.key := rfl
@[simp] theorem setDT_blocked (b : Byte) : (s.setDT b).blocked = s.blocked := rfl
@[simp] theorem setDT_jump (b : Byte) : (s.setDT b).jump = s.jump := rfl
@[simp] theorem setDT_draws (b : Byte) : (s.setDT b).draws = s.draws := rfl
@[simp] theorem setDT_hostCalls (b : Byte) : (s.setDT b).hostCalls = s.hostCalls := rfl
@[simp] theorem setDT_getV (b : Byte) (r : RegId) : (s.setDT b).getV r = s.getV r := rfl
@[simp] theorem setDT_getKey (b : Byte) (j : KeyId) : (s.setDT b).getKey j = s.getKey j := rfl
@[simp] theorem setDT_pixel (b : Byte) (u : Fin Config.screenW) (w : Fin Config.screenH) : (s.setDT b).pixel u w = s.pixel u w := rfl
@[simp] theorem setDT_byteAt (b : Byte) (n : Nat) : (s.setDT b).byteAt n = s.byteAt n := rfl

/-! ### setST -/

@[simp] theorem setST_V (b : Byte) : (s.setST b).V = s.V := rfl
@[simp] theorem setST_I (b : Byte) : (s.setST b).I = s.I := rfl
@[simp] theorem setST_pc (b : Byte) : (s.setST b).pc = s.pc := rfl
@[simp] theorem setST_stack (b : Byte) : (s.setST b).stack = s.stack := rfl
@[simp] theorem setST_DT (b : Byte) : (s.setST b).DT = s.DT := rfl
@[simp] theorem setST_ST (b : Byte) : (s.setST b).ST = b := rfl
@[simp] theorem setST_mem (b : Byte) : (s.setST b).mem = s.mem := rfl
@[simp] theorem setST_pix (b : Byte) : (s.setST b).pix = s.pix := rfl
@[simp] theorem setST_dirty (b : Byte) : (s.setST b).dirty = s.dirty := rfl
@[simp] theorem setST_key (b : Byte) : (s.setST b).key = s.key := rfl
@[simp] theorem setST_blocked (b : Byte) : (s.setST b).blocked = s.blocked := rfl
@[simp] theorem setST_jump (b : Byte) : (s.setST b).jump = s.jump := rfl
@[simp] theorem setST_draws (b : Byte) : (s.setST b).draws = s.draws := rfl
@[simp] theorem setST_hostCalls (b : Byte) : (s.setST b).hostCalls = s.hostCalls := rfl
@[simp] theorem setST_getV (b : Byte) (r : RegId) : (s.setST b).getV r = s.getV r := rfl
@[simp] theorem setST_getKey (b : Byte) (j : KeyId) : (s.setST b).getKey j = s.getKey j := rfl
@[simp] theorem setST_pixel (b : Byte) (u : Fin Config.screenW) (w : Fin Config.screenH) : (s.setST b).pixel u w = s.pixel u w := rfl
@[simp] theorem setST_byteAt (b : Byte) (n : Nat) : (s.setST b).byteAt n = s.byteAt n := rfl

/-! ### setBlocked -/

@[simp] theorem setBlocked_V (b : Blocked) : (s.setBlocked b).V = s.V := rfl
@[simp] theorem setBlocked_I (b : Blocked) : (s.setBlocked b).I = s.I := rfl
@[simp] theorem setBlocked_pc (b : Blocked) : (s.setBlocked b).pc = s.pc := rfl
@[simp] theorem setBlocked_stack (b : Blocked) : (s.setBlocked b).stack = s.stack := rfl
@[simp] theorem setBlocked_DT (b : Blocked) : (s.setBlocked b).DT = s.DT := rfl
@[simp] theorem setBlocked_ST (b : Blocked) : (s.setBlocked b).ST = s.ST := rfl
@[simp] theorem setBlocked_mem (b : Blocked) : (s.setBlocked b).mem = s.mem := rfl
@[simp] theorem setBlocked_pix (b : Blocked) : (s.setBlocked b).pix = s.pix := rfl
@[simp] theorem setBlocked_dirty (b : Blocked) : (s.setBlocked b).dirty = s.dirty := rfl
@[simp] theorem setBlocked_key (b : Blocked) : (s.setBlocked b).key = s.key := rfl
@[simp] theorem setBlocked_blocked (b : Blocked) : (s.setBlocked b).blocked = b := rfl
@[simp] theorem setBlocked_jump (b : Blocked) : (s.setBlocked b).jump = s.jump := rfl
@[simp] theorem setBlocked_draws (b : Blocked) : (s.setBlocked b).draws = s.draws := rfl
@[simp] theorem setBlocked_hostCalls (b : Blocked) : (s.setBlocked b).hostCalls = s.hostCalls := rfl
@[simp] theorem setBlocked_getV (b : Blocked) (r : RegId) : (s.setBlocked b).getV r = s.getV r := rfl
@[simp] theorem setBlocked_getKey (b : Blocked) (j : KeyId) : (s.setBlocked b).getKey j = s.getKey j := rfl
@[simp] theorem setBlocked_pixel (b : Blocked) (u : Fin Config.screenW) (w : Fin Config.screenH) : (s.setBlocked b).pixel u w = s.pixel u w := rfl
@[simp] theorem setBlocked_byteAt (b : Blocked) (n : Nat) : (s.setBlocked b).byteAt n = s.byteAt n := rfl

/-! ### setKey -/

@[simp] theorem setKey_V (k : KeyId) (v : KeyState) : (s.setKey k v).V = s.V := rfl
@[simp] theorem setKey_I (k : KeyId) (v : KeyState) : (s.setKey k v).I = s.I := rfl
@[simp] theorem setKey_pc (k : KeyId) (v : KeyState) : (s.setKey k v).pc = s.pc := rfl
@[simp] theorem setKey_stack (k : KeyId) (v : KeyState) : (s.setKey k v).stack = s.stack := rfl
@[simp] theorem setKey_DT (k : KeyId) (v : KeyState) : (s.setKey k v).DT = s.DT := rfl
@[simp] theorem setKey_ST (k : KeyId) (v : KeyState) : (s.setKey k v).ST = s.ST := rfl
@[simp] theorem setKey_mem (k : KeyId) (v : KeyState) : (s.setKey k v).mem = s.mem := rfl
@[simp] theorem setKey_pix (k : KeyId) (v : KeyState) : (s.setKey k v).pix = s.pix := rfl
@[simp] theorem setKey_dirty (k : KeyId) (v : KeyState) : (s.setKey k v).dirty = s.dirty := rfl
@[simp] theorem setKey_key (k : KeyId) (v : KeyState) : (s.setKey k v).key = s.key.set k v := rfl
@[simp] theorem setKey_blocked (k : KeyId) (v : KeyState) : (s.setKey k v).blocked = s.blocked := rfl
@[simp] theorem setKey_jump (k : KeyId) (v : KeyState) : (s.setKey k v).jump = s.jump := rfl
@[simp] theorem setKey_draws (k : KeyId) (v : KeyState) : (s.setKey k v).draws = s.draws := rfl
@[simp] theorem setKey_hostCalls (k : KeyId) (v : KeyState) : (s.setKey k v).hostCalls = s.hostCalls := rfl
@[simp] theorem setKey_getV (k : KeyId) (v : KeyState) (r : RegId) : (s.setKey k v).getV r = s.getV r := rfl
@[simp] theorem setKey_pixel (k : KeyId) (v : KeyState) (u : Fin Config.screenW) (w : Fin Config.screenH) : (s.setKey k v).pixel u w = s.pixel u w := rfl
@[simp] theorem setKey_byteAt (k : KeyId) (v : KeyState) (n : Nat) : (s.setKey k v).byteAt n = s.byteAt n := rfl

/-! ### setStack -/

@[simp] theorem setStack_V (es : List Word) : (s.setStack es).V = s.V := rfl
@[simp] theorem setStack_I (es : List Word) : (s.setStack es).I = s.I := rfl
@[simp] theorem setStack_pc (es : List Word) : (s.setStack es).pc = s.pc := rfl
@[simp] theorem setStack_stack (es : List Word) : (s.setStack es).stack = es := rfl
@[simp] theorem setStack_DT (es : List Word) : (s.setStack es).DT = s.DT := rfl
@[simp] theorem setStack_ST (es : List Word) : (s.setStack es).ST = s.ST := rfl
@[simp] theorem setStack_mem (es : List Word) : (s.setStack es).mem = s.mem := rfl
@[simp] theorem setStack_pix (es : List Word) : (s.setStack es).pix = s.pix := rfl
@[simp] theorem setStack_dirty (es : List Word) : (s.setStack es).dirty = s.dirty := rfl
@[simp] theorem setStack_key (es : List Word) : (s.setStack es).key = s.key := rfl
@[simp] theorem setStack_blocked (es : List Word) : (s.setStack es).blocked = s.blocked := rfl
@[simp] theorem setStack_jump (es : List Word) : (s.setStack es).jump = s.jump := rfl
@[simp] theorem setStack_draws (es : List Word) : (s.setStack es).draws = s.draws := rfl
@[simp] theorem setStack_hostCalls (es : List Word) : (s.setStack es).hostCalls = s.hostCalls := rfl
@[simp] theorem setStack_getV (es : List Word) (r : RegId) : (s.setStack es).getV r = s.getV r := rfl
@[simp] theorem setStack_getKey (es : List Word) (j : KeyId) : (s.setStack es).getKey j = s.getKey j := rfl
@[simp] theorem setStack_pixel (es : List Word) (u : Fin Config.screenW) (w : Fin Config.screenH) : (s.setStack es).pixel u w = s.pixel u w := rfl
@[simp] theorem setStack_byteAt (es : List Word) (n : Nat) : (s.setStack es).byteAt n = s.byteAt n := rfl

/-! ### push -/

@[simp] theorem push_V (a : Word) : (s.push a).V = s.V := rfl
@[simp] theorem push_I (a : Word) : (s.push a).I = s.I := rfl
@[simp] theorem push_pc (a : Word) : (s.push a).pc = s.pc := rfl
@[simp] theorem push_stack (a : Word) : (s.push a).stack = a :: s.stack := rfl
@[simp] theorem push_DT (a : Word) : (s.push a).DT = s.DT := rfl
@[simp] theorem push_ST (a : Word) : (s.push a).ST = s.ST := rfl
@[simp] theorem push_mem (a : Word) : (s.push a).mem = s.mem := rfl
@[simp] theorem push_pix (a : Word) : (s.push a).pix = s.pix := rfl
@[simp] theorem push_dirty (a : Word) : (s.push a).dirty = s.dirty := rfl
@[simp] theorem push_key (a : Word) : (s.push a).key = s.key := rfl
@[simp] theorem push_blocked (a : Word) : (s.push a).blocked = s.blocked := rfl
@[simp] theorem push_jump (a : Word) : (s.push a).jump = s.jump := rfl
@[simp] theorem push_draws (a : Word) : (s.push a).draws = s.draws := rfl
@[simp] theorem push_hostCalls (a : Word) : (s.push a).hostCalls = s.hostCalls := rfl
@[simp] theorem push_getV (a : Word) (r : RegId) : (s.push a).getV r = s.getV r := rfl
@[simp] theorem push_getKey (a : Word) (j : KeyId) : (s.push a).getKey j = s.getKey j := rfl
@[simp] theorem push_pixel (a : Word) (u : Fin Config.screenW) (w : Fin Config.screenH) : (s.push a).pixel u w = s.pixel u w := rfl
@[simp] theorem push_byteAt (a : Word) (n : Nat) : (s.push a).byteAt n = s.byteAt n := rfl

/-! ### setPixel -/

@[simp] theorem setPixel_V (x : Fin Config.screenW) (y : Fin Config.screenH) (p : Pixel) : (s.setPixel x y p).V = s.V := rfl
@[simp] theorem setPixel_I (x : Fin Config.screenW) (y : Fin Config.screenH) (p : Pixel) : (s.setPixel x y p).I = s.I := rfl
@[simp] theorem setPixel_pc (x : Fin Config.screenW) (y : Fin Config.screenH) (p : Pixel) : (s.setPixel x y p).pc = s.pc := rfl
@[simp] theorem setPixel_stack (x : Fin Config.screenW) (y : Fin Config.screenH) (p : Pixel) : (s.setPixel x y p).stack = s.stack := rfl
@[simp] theorem setPixel_DT (x : Fin Config.screenW) (y : Fin Config.screenH) (p : Pixel) : (s.setPixel x y p).DT = s.DT := rfl
@[simp] theorem setPixel_ST (x : Fin Config.screenW) (y : Fin Config.screenH) (p : Pixel) : (s.setPixel x y p).ST = s.ST := rfl
@[simp] theorem setPixel_mem (x : Fin Config.screenW) (y : Fin Config.screenH) (p : Pixel) : (s.setPixel x y p).mem = s.mem := rfl
@[simp] theorem setPixel_pix (x : Fin Config.screenW) (y : Fin Config.screenH) (p : Pixel) : (s.setPixel x y p).pix = s.pix.set x ((s.pix.get x).set y p) := rfl
@[simp] theorem setPixel_dirty (x : Fin Config.screenW) (y : Fin Config.screenH) (p : Pixel) : (s.setPixel x y p).dirty = s.dirty := rfl
@[simp] theorem setPixel_key (x : Fin Config.screenW) (y : Fin Config.screenH) (p : Pixel) : (s.setPixel x y p).key = s.key := rfl
@[simp] theorem setPixel_blocked (x : Fin Config.screenW) (y : Fin Config.screenH) (p : Pixel) : (s.setPixel x y p).blocked = s.blocked := rfl
@[simp] theorem setPixel_jump (x : Fin Config.screenW) (y : Fin Config.screenH) (p : Pixel) : (s.setPixel x y p).jump = s.jump := rfl
@[simp] theorem setPixel_draws (x : Fin Config.screenW) (y : Fin Config.screenH) (p : Pixel) : (s.setPixel x y p).draws = s.draws := rfl
@[simp] theorem setPixel_hostCalls (x : Fin Config.screenW) (y : Fin Config.screenH) (p : Pixel) : (s.setPixel x y p).hostCalls = s.hostCalls := rfl
@[simp] theorem setPixel_getV (x : Fin Config.screenW) (y : Fin Config.screenH) (p : Pixel) (r : RegId) : (s.setPixel x y p).getV r = s.getV r := rfl
@[simp] theorem setPixel_getKey (x : Fin Config.screenW) (y : Fin Config.screenH) (p : Pixel) (j : KeyId) : (s.setPixel x y p).getKey j = s.getKey j := rfl
@[simp] theorem setPixel_byteAt (x : Fin Config.screenW) (y : Fin Config.screenH) (p : Pixel) (n : Nat) : (s.setPixel x y p).byteAt n = s.byteAt n := rfl

/-! ### setDirty -/

@[simp] theorem setDirty_V (b : Bool) : (s.setDirty b).V = s.V := rfl
@[simp] theorem setDirty_I (b : Bool) : (s.setDirty b).I = s.I := rfl
@[simp] theorem setDirty_pc (b : Bool) : (s.setDirty b).pc = s.pc := rfl
@[simp] theorem setDirty_stack (b : Bool) : (s.setDirty b).stack = s.stack := rfl
@[simp] theorem setDirty_DT (b : Bool) : (s.setDirty b).DT = s.DT := rfl
@[simp] theorem setDirty_ST (b : Bool) : (s.setDirty b).ST = s.ST := rfl
@[simp] theorem setDirty_mem (b : Bool) : (s.setDirty b).mem = s.mem := rfl
@[simp] theorem setDirty_pix (b : Bool) : (s.setDirty b).pix = s.pix := rfl
@[simp] theorem setDirty_dirty (b : Bool) : (s.setDirty b).dirty = b := rfl
@[simp] theorem setDirty_key (b : Bool) : (s.setDirty b).key = s.key := rfl
@[simp] theorem setDirty_blocked (b : Bool) : (s.setDirty b).blocked = s.blocked := rfl
@[simp] theorem setDirty_jump (b : Bool) : (s.setDirty b).jump = s.jump := rfl
@[simp] theorem setDirty_draws (b : Bool) : (s.setDirty b).draws = s.draws := rfl
@[simp] theorem setDirty_hostCalls (b : Bool) : (s.setDirty b).hostCalls = s.hostCalls := rfl
@[simp] theorem setDirty_getV (b : Bool) (r : RegId) : (s.setDirty b).getV r = s.getV r := rfl
@[simp] theorem setDirty_getKey (b : Bool) (j : KeyId) : (s.setDirty b).getKey j = s.getKey j := rfl
@[simp] theorem setDirty_pixel (b : Bool) (u : Fin Config.screenW) (w : Fin Config.screenH) : (s.setDirty b).pixel u w = s.pixel u w := rfl
@[simp] theorem setDirty_byteAt (b : Bool) (n : Nat) : (s.setDirty b).byteAt n = s.byteAt n := rfl

/-! ### clear -/

@[simp] theorem clear_V : (s.clear).V = s.V := rfl
@[simp] theorem clear_I : (s.clear).I = s.I := rfl
@[simp] theorem clear_pc : (s.clear).pc = s.pc := rfl
@[simp] theorem clear_stack : (s.clear).stack = s.stack := rfl
@[simp] theorem clear_DT : (s.clear).DT = s.DT := rfl
@[simp] theorem clear_ST : (s.clear).ST = s.ST := rfl
@[simp] theorem clear_mem : (s.clear).mem = s.mem := rfl
@[simp] theorem clear_pix : (s.clear).pix = clearScreen := rfl
@[simp] theorem clear_dirty : (s.clear).dirty = true := rfl
@[simp] theorem clear_key : (s.clear).key = s.key := rfl
@[simp] theorem clear_blocked : (s.clear).blocked = s.blocked := rfl
@[simp] theorem clear_jump : (s.clear).jump = s.jump := rfl
@[simp] theorem clear_draws : (s.clear).draws = s.draws := rfl
@[simp] theorem clear_hostCalls : (s.clear).hostCalls = s.hostCalls := rfl
@[simp] theorem clear_getV (r : RegId) : (s.clear).getV r = s.getV r := rfl
@[simp] theorem clear_getKey (j : KeyId) : (s.clear).getKey j = s.getKey j := rfl
@[simp] theorem clear_byteAt (n : Nat) : (s.clear).byteAt n = s.byteAt n := rfl

/-! ### storeBlock -/

@[simp] theorem storeBlock_V (a : Nat) (bs : List Byte) : (s.storeBlock a bs).V = s.V := rfl
@[simp] theorem storeBlock_I (a : Nat) (bs : List Byte) : (s.storeBlock a bs).I = s.I := rfl
@[simp] theorem storeBlock_pc (a : Nat) (bs : List Byte) : (s.storeBlock a bs).pc = s.pc := rfl
@[simp] theorem storeBlock_stack (a : Nat) (bs : List Byte) : (s.storeBlock a bs).stack = s.stack := rfl
@[simp] theorem storeBlock_DT (a : Nat) (bs : List Byte) : (s.storeBlock a bs).DT = s.DT := rfl
@[simp] theorem storeBlock_ST (a : Nat) (bs : List Byte) : (s.storeBlock a bs).ST = s.ST := rfl
@[simp] theorem storeBlock_mem (a : Nat) (bs : List Byte) : (s.storeBlock a bs).mem = Memory.writeBlock s.mem a bs := rfl
@[simp] theorem storeBlock_pix (a : Nat) (bs : List Byte) : (s.storeBlock a bs).pix = s.pix := rfl
@[simp] theorem storeBlock_dirty (a : Nat) (bs : List Byte) : (s.storeBlock a bs).dirty = s.dirty := rfl
@[simp] theorem storeBlock_key (a : Nat) (bs : List Byte) : (s.storeBlock a bs).key = s.key := rfl
@[simp] theorem storeBlock_blocked (a : Nat) (bs : List Byte) : (s.storeBlock a bs).blocked = s.blocked := rfl
@[simp] theorem storeBlock_jump (a : Nat) (bs : List Byte) : (s.storeBlock a bs).jump = s.jump := rfl
@[simp] theorem storeBlock_draws (a : Nat) (bs : List Byte) : (s.storeBlock a bs).draws = s.draws := rfl
@[simp] theorem storeBlock_hostCalls (a : Nat) (bs : List Byte) : (s.storeBlock a bs).hostCalls = s.hostCalls := rfl
@[simp] theorem storeBlock_getV (a : Nat) (bs : List Byte) (r : RegId) : (s.storeBlock a bs).getV r = s.getV r := rfl
@[simp] theorem storeBlock_getKey (a : Nat) (bs : List Byte) (j : KeyId) : (s.storeBlock a bs).getKey j = s.getKey j := rfl
@[simp] theorem storeBlock_pixel (a : Nat) (bs : List Byte) (u : Fin Config.screenW) (w : Fin Config.screenH) : (s.storeBlock a bs).pixel u w = s.pixel u w := rfl

/-! ### drawByte -/

@[simp] theorem drawByte_byte : s.drawByte.1 = Config.freeDraw s.draws := rfl
@[simp] theorem drawByte_V : s.drawByte.2.V = s.V := rfl
@[simp] theorem drawByte_I : s.drawByte.2.I = s.I := rfl
@[simp] theorem drawByte_pc : s.drawByte.2.pc = s.pc := rfl
@[simp] theorem drawByte_stack : s.drawByte.2.stack = s.stack := rfl
@[simp] theorem drawByte_DT : s.drawByte.2.DT = s.DT := rfl
@[simp] theorem drawByte_ST : s.drawByte.2.ST = s.ST := rfl
@[simp] theorem drawByte_mem : s.drawByte.2.mem = s.mem := rfl
@[simp] theorem drawByte_pix : s.drawByte.2.pix = s.pix := rfl
@[simp] theorem drawByte_dirty : s.drawByte.2.dirty = s.dirty := rfl
@[simp] theorem drawByte_key : s.drawByte.2.key = s.key := rfl
@[simp] theorem drawByte_blocked : s.drawByte.2.blocked = s.blocked := rfl
@[simp] theorem drawByte_jump : s.drawByte.2.jump = s.jump := rfl
@[simp] theorem drawByte_draws : s.drawByte.2.draws = s.draws + 1 := rfl
@[simp] theorem drawByte_hostCalls : s.drawByte.2.hostCalls = s.hostCalls := rfl
@[simp] theorem drawByte_getV (r : RegId) : s.drawByte.2.getV r = s.getV r := rfl
@[simp] theorem drawByte_getKey (j : KeyId) : s.drawByte.2.getKey j = s.getKey j := rfl
@[simp] theorem drawByte_pixel (u : Fin Config.screenW) (w : Fin Config.screenH) : s.drawByte.2.pixel u w = s.pixel u w := rfl
@[simp] theorem drawByte_byteAt (n : Nat) : s.drawByte.2.byteAt n = s.byteAt n := rfl

/-! ### The reads of what an update writes -/

@[simp] theorem getV_setV (x r : RegId) (b : Byte) : (s.setV x b).getV r = if x = r then b else s.getV r := by
  simp only [getV, setV, Vector.get_eq_getElem, Vector.getElem_set, Fin.ext_iff]

@[simp] theorem getV_setFlag (f : Byte) (r : RegId) : (s.setFlag f).getV r = if flagReg = r then f else s.getV r :=
  getV_setV s flagReg r f

@[simp] theorem getV_resultThenFlag (x r : RegId) (v f : Byte) :
    (s.resultThenFlag x v f).getV r = if flagReg = r then f else if x = r then v else s.getV r := by
  unfold resultThenFlag; rw [getV_setFlag, getV_setV]

@[simp] theorem getV_flagThenResult (x r : RegId) (f v : Byte) :
    (s.flagThenResult x f v).getV r = if x = r then v else if flagReg = r then f else s.getV r := by
  unfold flagThenResult; rw [getV_setV, getV_setFlag]

@[simp] theorem getKey_setKey (k j : KeyId) (v : KeyState) :
    (s.setKey k v).getKey j = if k = j then v else s.getKey j := by
  simp only [getKey, setKey, Vector.get_eq_getElem, Vector.getElem_set, Fin.ext_iff]

@[simp] theorem pixel_setPixel (x u : Fin Config.screenW) (y v : Fin Config.screenH) (p : Pixel) :
    (s.setPixel x y p).pixel u v = if x = u ∧ y = v then p else s.pixel u v := by
  obtain ⟨x, hx⟩ := x; obtain ⟨u, hu⟩ := u; obtain ⟨y, hy⟩ := y; obtain ⟨v, hv⟩ := v
  simp only [pixel, setPixel, Vector.get_eq_getElem, Vector.getElem_set, Fin.mk.injEq]
  by_cases h : x = u
  · subst h; by_cases h' : y = v <;> simp [h']
  · simp [h]

@[simp] theorem pixel_clear (u : Fin Config.screenW) (v : Fin Config.screenH) : s.clear.pixel u v = .off := by
  simp [pixel, clear, clearScreen, Vector.get_eq_getElem]

/-! ### The end of a cycle (R75) -/

theorem endCycle_of_jump (h : s.jump = true) : s.endCycle = s.clearJump := by simp [endCycle, h]

theorem endCycle_of_not_jump (h : s.jump = false) : s.endCycle = s.advancePc.clearJump := by simp [endCycle, h]

@[simp] theorem endCycle_jump : s.endCycle.jump = false := rfl

@[simp] theorem endCycle_pc : s.endCycle.pc = if s.jump then s.pc else s.pc + instrBytes := by
  cases h : s.jump <;> simp [endCycle, h]

@[simp] theorem endCycle_V : s.endCycle.V = s.V := by cases h : s.jump <;> simp [endCycle, h]
@[simp] theorem endCycle_I : s.endCycle.I = s.I := by cases h : s.jump <;> simp [endCycle, h]
@[simp] theorem endCycle_stack : s.endCycle.stack = s.stack := by cases h : s.jump <;> simp [endCycle, h]
@[simp] theorem endCycle_DT : s.endCycle.DT = s.DT := by cases h : s.jump <;> simp [endCycle, h]
@[simp] theorem endCycle_ST : s.endCycle.ST = s.ST := by cases h : s.jump <;> simp [endCycle, h]
@[simp] theorem endCycle_mem : s.endCycle.mem = s.mem := by cases h : s.jump <;> simp [endCycle, h]
@[simp] theorem endCycle_pix : s.endCycle.pix = s.pix := by cases h : s.jump <;> simp [endCycle, h]
@[simp] theorem endCycle_dirty : s.endCycle.dirty = s.dirty := by cases h : s.jump <;> simp [endCycle, h]
@[simp] theorem endCycle_key : s.endCycle.key = s.key := by cases h : s.jump <;> simp [endCycle, h]
@[simp] theorem endCycle_blocked : s.endCycle.blocked = s.blocked := by cases h : s.jump <;> simp [endCycle, h]
@[simp] theorem endCycle_draws : s.endCycle.draws = s.draws := by cases h : s.jump <;> simp [endCycle, h]
@[simp] theorem endCycle_hostCalls : s.endCycle.hostCalls = s.hostCalls := by cases h : s.jump <;> simp [endCycle, h]
@[simp] theorem endCycle_getV (r : RegId) : s.endCycle.getV r = s.getV r := by cases h : s.jump <;> simp [endCycle, h]
@[simp] theorem endCycle_getKey (j : KeyId) : s.endCycle.getKey j = s.getKey j := by cases h : s.jump <;> simp [endCycle, h]
@[simp] theorem endCycle_pixel (u : Fin Config.screenW) (w : Fin Config.screenH) : s.endCycle.pixel u w = s.pixel u w := by cases h : s.jump <;> simp [endCycle, h]
@[simp] theorem endCycle_byteAt (n : Nat) : s.endCycle.byteAt n = s.byteAt n := by cases h : s.jump <;> simp [endCycle, h]

end Sys2Proof.Machine.State
end

