-- ==== Sys2Proof/Laws/Memory.lean ====
section
/-! SUPPORT. The laws of the memory array: read after write, the canonical form, blocks, and the access paths of
20_memory.md. -/

namespace Sys2Proof.Machine

/-! ## One byte -/

theorem Memory.read_cons (a n : Nat) (b : Byte) (m : Memory) (h : Memory.read m a = Memory.unlisted) :
    Memory.read (Memory.cons a b m) n = if a = n then b else Memory.read m n := by
  unfold Memory.cons
  split
  · rename_i hb; subst hb
    split
    · rename_i han; subst han; exact h
    · rfl
  · rfl

/-- An address below every entry is not listed. -/
theorem Memory.read_below (m : Memory) (a : Nat) (h : ∀ c ∈ m, a < c.1) : Memory.read m a = Memory.unlisted := by
  induction m with
  | nil => rfl
  | cons c m ih =>
    obtain ⟨c1, c2⟩ := c
    have h1 : a < c1 := h _ List.mem_cons_self
    simp only [Memory.read, if_neg (by omega : ¬ c1 = a)]
    exact ih fun c hc => h c (List.mem_cons_of_mem _ hc)

/-- A write is read back, and every other address reads as before. -/
theorem Memory.read_write (m : Memory) (hm : m.Pairwise fun c d => c.1 < d.1) (a n : Nat) (b : Byte) :
    Memory.read (Memory.write m a b) n = if a = n then b else Memory.read m n := by
  induction m with
  | nil => exact Memory.read_cons a n b [] rfl
  | cons c m ih =>
    obtain ⟨c1, c2⟩ := c
    obtain ⟨hc, hm⟩ := List.pairwise_cons.mp hm
    simp only [Memory.write]
    split
    · rename_i h
      refine Memory.read_cons a n b _ (Memory.read_below _ _ ?_)
      intro d hd
      rcases List.mem_cons.mp hd with rfl | hd
      · exact h
      · exact Nat.lt_trans h (hc d hd)
    · split
      · rename_i _ h; subst h
        rw [Memory.read_cons a n b m (Memory.read_below _ _ fun d hd => hc d hd)]
        simp only [Memory.read]
        split <;> rfl
      · rename_i _ h
        simp only [Memory.read, ih hm]
        by_cases h1 : c1 = n
        · subst h1; simp [h]
        · simp [h1]

/-- A write leaves every other address, in any memory. -/
theorem Memory.read_write_other (m : Memory) (a n : Nat) (b : Byte) (h : a ≠ n) :
    Memory.read (Memory.write m a b) n = Memory.read m n := by
  have hc : ∀ m' : Memory, Memory.read (Memory.cons a b m') n = Memory.read m' n := by
    intro m'; unfold Memory.cons; split
    · rfl
    · simp [Memory.read, h]
  induction m with
  | nil => exact hc []
  | cons c m ih =>
    obtain ⟨c1, c2⟩ := c
    simp only [Memory.write]
    split
    · exact hc _
    · split
      · rename_i _ h'; subst h'; rw [hc]; simp [Memory.read, h]
      · simp [Memory.read, ih]

theorem Memory.mem_cons_cell (a : Nat) (b : Byte) (m : Memory) (c : Host.Cell) (h : c ∈ Memory.cons a b m) :
    c = (a, b) ∧ b ≠ Memory.unlisted ∨ c ∈ m := by
  unfold Memory.cons at h
  split at h
  · exact .inr h
  · rcases List.mem_cons.mp h with h | h
    · exact .inl ⟨h, ‹_›⟩
    · exact .inr h

/-- An entry after a write is the one written, and not the unlisted byte, or was there. -/
theorem Memory.mem_write (m : Memory) (a : Nat) (b : Byte) (c : Host.Cell) (h : c ∈ Memory.write m a b) :
    c = (a, b) ∧ b ≠ Memory.unlisted ∨ c ∈ m := by
  induction m with
  | nil => exact Memory.mem_cons_cell a b [] c h
  | cons d m ih =>
    obtain ⟨d1, d2⟩ := d
    simp only [Memory.write] at h
    split at h
    · exact Memory.mem_cons_cell a b _ c h
    · split at h
      · exact (Memory.mem_cons_cell a b m c h).imp_right fun h => List.mem_cons_of_mem _ h
      · rcases List.mem_cons.mp h with rfl | h
        · exact .inr List.mem_cons_self
        · exact (ih h).imp_right fun h => List.mem_cons_of_mem _ h

theorem Memory.pairwise_cons_cell (a : Nat) (b : Byte) (m : Memory) (hm : m.Pairwise fun c d => c.1 < d.1)
    (h : ∀ c ∈ m, a < c.1) : (Memory.cons a b m).Pairwise fun c d => c.1 < d.1 := by
  unfold Memory.cons
  split
  · exact hm
  · exact List.pairwise_cons.mpr ⟨h, hm⟩

/-- A write keeps the addresses strictly rising. -/
theorem Memory.write_pairwise (m : Memory) (a : Nat) (b : Byte) (hm : m.Pairwise fun c d => c.1 < d.1) :
    (Memory.write m a b).Pairwise fun c d => c.1 < d.1 := by
  induction m with
  | nil => exact Memory.pairwise_cons_cell a b [] List.Pairwise.nil (by simp)
  | cons d m ih =>
    obtain ⟨d1, d2⟩ := d
    obtain ⟨hd, hm'⟩ := List.pairwise_cons.mp hm
    simp only [Memory.write]
    split
    · rename_i h
      refine Memory.pairwise_cons_cell a b _ hm ?_
      intro c hc
      rcases List.mem_cons.mp hc with rfl | hc
      · exact h
      · exact Nat.lt_trans h (hd c hc)
    · split
      · rename_i _ h; subst h
        exact Memory.pairwise_cons_cell a b m hm' hd
      · refine List.pairwise_cons.mpr ⟨fun c hc => ?_, ih hm'⟩
        rcases Memory.mem_write m a b c hc with ⟨rfl, _⟩ | hc
        · simp only; omega
        · exact hd c hc

/-- A write inside the array keeps the canonical form. -/
theorem Memory.write_wf (m : Memory) (a : Nat) (b : Byte) (hm : Memory.wf m) (ha : a < memSize) :
    Memory.wf (Memory.write m a b) := by
  refine ⟨Memory.write_pairwise m a b hm.1, fun c hc => ?_⟩
  rcases Memory.mem_write m a b c hc with ⟨rfl, hb⟩ | hc
  · exact ⟨ha, hb⟩
  · exact hm.2 c hc

/-- No byte of a canonical memory lies at or above MEM_SIZE. -/
theorem Memory.read_beyond (m : Memory) (hm : Memory.wf m) (a : Nat) (ha : memSize ≤ a) :
    Memory.read m a = Memory.unlisted := by
  have h : ∀ c ∈ m, c.1 < memSize := fun c hc => (hm.2 c hc).1
  clear hm
  induction m with
  | nil => rfl
  | cons c m ih =>
    obtain ⟨c1, c2⟩ := c
    have h1 : c1 < memSize := h _ List.mem_cons_self
    simp only [Memory.read, if_neg (by omega : ¬ c1 = a)]
    exact ih fun c hc => h c (List.mem_cons_of_mem _ hc)

/-! ## Blocks -/

theorem Memory.writeBlock_wf (bs : List Byte) (m : Memory) (a : Nat) (hm : Memory.wf m) (h : a + bs.length ≤ memSize) :
    Memory.wf (Memory.writeBlock m a bs) := by
  induction bs generalizing m a with
  | nil => exact hm
  | cons b bs ih =>
    simp only [List.length_cons] at h
    exact ih _ _ (Memory.write_wf m a b hm (by omega)) (by omega)

theorem Memory.writeBlock_pairwise (bs : List Byte) (m : Memory) (a : Nat) (hm : m.Pairwise fun c d => c.1 < d.1) :
    (Memory.writeBlock m a bs).Pairwise fun c d => c.1 < d.1 := by
  induction bs generalizing m a with
  | nil => exact hm
  | cons b bs ih => exact ih _ _ (Memory.write_pairwise m a b hm)

/-- A block write leaves every address outside the block, in any memory. -/
theorem Memory.read_writeBlock_other (bs : List Byte) (m : Memory) (a n : Nat) (h : n < a ∨ a + bs.length ≤ n) :
    Memory.read (Memory.writeBlock m a bs) n = Memory.read m n := by
  induction bs generalizing m a with
  | nil => rfl
  | cons b bs ih =>
    simp only [List.length_cons] at h
    rw [Memory.writeBlock, ih _ _ (by omega), Memory.read_write_other _ _ _ _ (by omega)]

/-- A block write is read back byte by byte. -/
theorem Memory.read_writeBlock (bs : List Byte) (m : Memory) (a j : Nat) (hm : m.Pairwise fun c d => c.1 < d.1)
    (h : j < bs.length) : Memory.read (Memory.writeBlock m a bs) (a + j) = bs[j] := by
  induction bs generalizing m a j with
  | nil => simp at h
  | cons b bs ih =>
    rw [Memory.writeBlock]
    cases j with
    | zero =>
      rw [Memory.read_writeBlock_other _ _ _ _ (by omega), Memory.read_write _ hm]; simp
    | succ j =>
      have := ih (Memory.write m a b) (a + 1) j (Memory.write_pairwise m a b hm) (by simpa using h)
      rw [show a + (j + 1) = a + 1 + j by omega, this]; simp

@[simp] theorem Memory.readBlock_length (m : Memory) (a n : Nat) : (Memory.readBlock m a n).length = n := by
  simp [Memory.readBlock]

@[simp] theorem Memory.readBlock_getElem (m : Memory) (a n j : Nat) (h : j < (Memory.readBlock m a n).length) :
    (Memory.readBlock m a n)[j] = Memory.read m (a + j) := by
  simp [Memory.readBlock]

/-! ## Equal memories are equal data -/

/-- Two canonical memories that read alike everywhere are the same list. -/
theorem Memory.ext_of_wf (m m' : Memory) (hm : Memory.wf m) (hm' : Memory.wf m')
    (h : ∀ a, Memory.read m a = Memory.read m' a) : m = m' := by
  have head : ∀ (c : Host.Cell) (l : Memory), Memory.read (c :: l) c.1 = c.2 := fun c l => by
    simp [Memory.read]
  induction m generalizing m' with
  | nil =>
    cases m' with
    | nil => rfl
    | cons d l =>
      have := h d.1
      rw [head] at this
      exact absurd this.symm (hm'.2 d List.mem_cons_self).2
  | cons c l ih =>
    obtain ⟨hc, hl⟩ := List.pairwise_cons.mp hm.1
    cases m' with
    | nil =>
      have := h c.1
      rw [head] at this
      exact absurd this (hm.2 c List.mem_cons_self).2
    | cons d l' =>
      obtain ⟨hd, hl'⟩ := List.pairwise_cons.mp hm'.1
      have hcd : c.1 = d.1 := by
        rcases Nat.lt_trichotomy c.1 d.1 with hlt | heq | hgt
        · have h1 := h c.1
          rw [head, Memory.read_below (d :: l') c.1] at h1
          · exact absurd h1 (hm.2 c List.mem_cons_self).2
          · intro e he
            rcases List.mem_cons.mp he with rfl | he
            · exact hlt
            · exact Nat.lt_trans hlt (hd e he)
        · exact heq
        · have h1 := h d.1
          rw [head, Memory.read_below (c :: l) d.1] at h1
          · exact absurd h1.symm (hm'.2 d List.mem_cons_self).2
          · intro e he
            rcases List.mem_cons.mp he with rfl | he
            · exact hgt
            · exact Nat.lt_trans hgt (hc e he)
      have hval : c.2 = d.2 := by
        have h1 := h c.1
        rw [head, hcd, head] at h1; exact h1
      have hcd' : c = d := Prod.ext hcd hval
      subst hcd'
      refine congrArg (c :: ·) (ih l' ⟨hl, fun e he => hm.2 e (List.mem_cons_of_mem _ he)⟩
        ⟨hl', fun e he => hm'.2 e (List.mem_cons_of_mem _ he)⟩ fun a => ?_)
      by_cases ha : c.1 = a
      · subst ha; rw [Memory.read_below l _ hc, Memory.read_below l' _ hd]
      · have := h a
        simpa [Memory.read, ha] using this

/-! ## A state's bytes -/

theorem byteAt_storeBlock_other (s : State) (a n : Nat) (bs : List Byte) (h : n < a ∨ a + bs.length ≤ n) :
    (s.storeBlock a bs).byteAt n = s.byteAt n := Memory.read_writeBlock_other bs s.mem a n h

theorem byteAt_storeBlock (s : State) (a j : Nat) (bs : List Byte) (hm : Memory.wf s.mem) (h : j < bs.length) :
    (s.storeBlock a bs).byteAt (a + j) = bs[j] := Memory.read_writeBlock bs s.mem a j hm.1 h

/-! ## The access paths (R45, R46, R48, R49, R52) -/

/-- Everything the restricted write can do (R46). -/
theorem memWriteRestricted_cases (addr : Nat) (bs : List Byte) (s : State) :
    (addr < unprotectedStart ∧ memWriteRestricted addr bs s = .error (.belowBoundary addr)) ∨
    (unprotectedStart ≤ addr ∧ memSize < addr + bs.length ∧
      memWriteRestricted addr bs s = .error (.pastEnd (max addr memSize))) ∨
    (unprotectedStart ≤ addr ∧ addr + bs.length ≤ memSize ∧
      memWriteRestricted addr bs s = .ok (s.storeBlock addr bs)) := by
  unfold memWriteRestricted
  by_cases h1 : addr < unprotectedStart
  · simp [h1]
  · by_cases h2 : memSize < addr + bs.length
    · simp [h1, h2]; omega
    · simp [h1, h2]; omega

theorem memWriteRestricted_ok (addr : Nat) (bs : List Byte) (s : State) (h : unprotectedStart ≤ addr)
    (h' : addr + bs.length ≤ memSize) : memWriteRestricted addr bs s = .ok (s.storeBlock addr bs) := by
  rw [memWriteRestricted, if_neg (by omega), if_neg (by omega)]

theorem memRead_ok (addr : Nat) (s : State) (h : addr < memSize) : memRead addr s = some (s.byteAt addr) := by
  rw [memRead, if_neg (by omega)]

theorem memRead_none (addr : Nat) (s : State) (h : memSize ≤ addr) : memRead addr s = none := by
  rw [memRead, if_pos h]

theorem spriteRead_ok (addr n : Nat) (s : State) (h : addr + n ≤ memSize) :
    spriteRead addr n s = some (Memory.readBlock s.mem addr n) := by rw [spriteRead, if_neg (by omega)]

theorem spriteRead_none (addr n : Nat) (s : State) (h : memSize < addr + n) : spriteRead addr n s = none := by
  rw [spriteRead, if_pos h]

theorem fetchable_iff (a : Nat) : fetchable a = true ↔ unprotectedStart ≤ a ∧ a + 1 < memSize := by
  simp [fetchable]

theorem fetch_ok (a : Nat) (s : State) (h : unprotectedStart ≤ a) (h' : a + 1 < memSize) :
    fetch a s = some (wordOfBytes (s.byteAt a) (s.byteAt (a + 1))) := by
  rw [fetch, if_pos ((fetchable_iff a).mpr ⟨h, h'⟩)]

theorem fetch_none (a : Nat) (s : State) (h : a < unprotectedStart ∨ memSize ≤ a + 1) : fetch a s = none := by
  rw [fetch, if_neg]
  rw [fetchable_iff]; omega

end Sys2Proof.Machine
end

