-- ==== Sys2Proof/Laws/Block.lean ====
section
/-! SUPPORT. What the block transfers and the BCD store do (44_index_memory.md R124 to R126), their partial effects included. -/

namespace Sys2Proof.Machine

/-! ## The register range -/

theorem regsThrough_val (x : RegId) : (regsThrough x).map Fin.val = List.range' 0 (x.val + 1) := by
  revert x; decide

theorem regsThrough_length (x : RegId) : (regsThrough x).length = x.val + 1 := by
  simpa using congrArg List.length (regsThrough_val x)

theorem mem_regsThrough (x r : RegId) : r ∈ regsThrough x ↔ r ≤ x := by
  revert x r; decide

theorem regsThrough_getElem (x : RegId) (j : Nat) (h : j < (regsThrough x).length) : ((regsThrough x)[j]).val = j := by
  have h' : j < ((regsThrough x).map Fin.val).length := by simpa using h
  have := List.getElem_map Fin.val (h := h')
  rw [← this]
  simp only [regsThrough_val, List.getElem_range']
  omega

/-! ## One byte through the restricted path -/

theorem writeByteThen_ok (a : Nat) (b : Byte) (s : State) (k : State → Result) (h : unprotectedStart ≤ a)
    (h' : a < memSize) : writeByteThen a b s k = k (s.storeBlock a [b]) := by
  rw [writeByteThen, memWriteRestricted_ok a [b] s h (by simpa using h')]

theorem writeByteThen_low (a : Nat) (b : Byte) (s : State) (k : State → Result) (h : a < unprotectedStart) :
    writeByteThen a b s k = .fault (.invalidMemoryAccess a s) := by
  rw [writeByteThen, memWriteRestricted, if_pos h]; rfl

theorem writeByteThen_high (a : Nat) (b : Byte) (s : State) (k : State → Result) (h : memSize ≤ a) :
    writeByteThen a b s k = .fault (.invalidMemoryAccess a s) := by
  have h1 : ¬ a < unprotectedStart := by simp only [memSize, unprotectedStart] at *; omega
  have h2 : memSize < a + [b].length := by simp only [List.length_singleton]; omega
  rw [writeByteThen, memWriteRestricted, if_neg h1, if_pos h2]
  simp only [WriteError.addr, raise]; rw [Nat.max_eq_left h]

/-! ## Fx55 (R125) -/

/-- Everything Fx55's loop does from an address of the program region on, for consecutive registers from k: the registers that
fit are stored, and the first address past memory is reported. -/
theorem dumpLoop_spec (base : Nat) (rs : List RegId) (k : Nat) (s : State)
    (hrs : rs.map Fin.val = List.range' k rs.length) (h : unprotectedStart ≤ base + k) :
    dumpLoop base rs s =
      if base + k + rs.length ≤ memSize ∨ rs = [] then .next (s.storeBlock (base + k) (rs.map s.getV))
      else .fault (.invalidMemoryAccess (max (base + k) memSize)
        (s.storeBlock (base + k) ((rs.take (memSize - (base + k))).map s.getV))) := by
  induction rs generalizing k s with
  | nil => simp [dumpLoop, State.storeBlock, Memory.writeBlock]
  | cons r rs ih =>
    simp only [List.map_cons, List.length_cons, List.range'_succ, List.cons.injEq] at hrs
    obtain ⟨hr, hrs⟩ := hrs
    simp only [dumpLoop, hr, List.length_cons, reduceCtorEq, or_false]
    by_cases hk : base + k < memSize
    · rw [writeByteThen_ok _ _ _ _ h hk, ih (k + 1) _ hrs (by omega)]
      have e1 : memSize - (base + k) = (memSize - (base + (k + 1))) + 1 := by omega
      rw [e1, List.take_succ_cons, List.map_cons, List.map_cons, max_eq_right (by omega : base + k ≤ memSize),
        max_eq_right (by omega : base + (k + 1) ≤ memSize)]
      by_cases hfit : base + k + (rs.length + 1) ≤ memSize
      · rw [if_pos (.inl (by omega)), if_pos hfit]; rfl
      · rw [if_neg hfit, if_neg]
        · rfl
        · rintro (hh | rfl)
          · omega
          · simp only [List.length_nil] at hfit; omega
    · rw [writeByteThen_high _ _ _ _ (by omega), if_neg (by omega), max_eq_left (by omega : memSize ≤ base + k),
        show memSize - (base + k) = 0 by omega]
      rfl

/-- Fx55 below the boundary fails at its first byte (R125). -/
theorem dumpLoop_low (base : Nat) (r : RegId) (rs : List RegId) (s : State) (h : base + r.val < unprotectedStart) :
    dumpLoop base (r :: rs) s = .fault (.invalidMemoryAccess (base + r.val) s) := by
  rw [dumpLoop, writeByteThen_low _ _ _ _ h]

/-! ## Fx65 (R126) -/

/-- The states differ in the data registers at most. -/
def SameButV (s t : State) : Prop := t = { s with V := t.V }

/-- Everything Fx65's loop does, for consecutive registers from k: the registers whose byte exists are loaded, and the first
address past memory is reported. -/
theorem loadLoop_spec (base : Nat) (rs : List RegId) (k : Nat) (s : State)
    (hrs : rs.map Fin.val = List.range' k rs.length) :
    ∃ t, SameButV s t ∧
      (∀ r, t.getV r = if r ∈ rs ∧ base + r.val < memSize then s.byteAt (base + r.val) else s.getV r) ∧
      loadLoop base rs s =
        if base + k + rs.length ≤ memSize ∨ rs = [] then .next t
        else .fault (.invalidMemoryAccess (max (base + k) memSize) t) := by
  induction rs generalizing k s with
  | nil => exact ⟨s, rfl, fun r => by simp, by simp [loadLoop]⟩
  | cons r rs ih =>
    simp only [List.map_cons, List.length_cons, List.range'_succ, List.cons.injEq] at hrs
    obtain ⟨hr, hrs⟩ := hrs
    by_cases hk : base + k < memSize
    · obtain ⟨t, h1, h2, h3⟩ := ih (k + 1) (s.setV r (s.byteAt (base + k))) hrs
      refine ⟨t, ?_, ?_, ?_⟩
      · unfold SameButV at *; rw [h1]; rfl
      · intro q
        rw [h2 q, State.getV_setV, State.setV_byteAt]
        have hnot : r ∉ rs := fun hmem => by
          have : r.val ∈ List.range' (k + 1) rs.length := by rw [← hrs]; exact List.mem_map_of_mem hmem
          rw [List.mem_range'] at this
          obtain ⟨i, _, hi⟩ := this; omega
        by_cases hq : r = q
        · subst hq; simp [hnot, hr, hk]
        · simp [Ne.symm hq, hq]
      · simp only [loadLoop, hr, memRead_ok _ s hk, h3, List.length_cons, reduceCtorEq, or_false]
        by_cases hfit : base + k + (rs.length + 1) ≤ memSize
        · rw [if_pos (.inl (by omega)), if_pos hfit]
        · rw [if_neg hfit, if_neg, max_eq_right (by omega : base + k ≤ memSize),
            max_eq_right (by omega : base + (k + 1) ≤ memSize)]
          rintro (hh | rfl)
          · omega
          · simp only [List.length_nil] at hfit; omega
    · refine ⟨s, rfl, fun q => ?_, ?_⟩
      · rw [if_neg]
        rintro ⟨hq, hlt⟩
        have : q.val ∈ (r :: rs).map Fin.val := List.mem_map_of_mem hq
        rw [List.map_cons, hr, hrs, List.mem_cons, List.mem_range'] at this
        rcases this with h | ⟨i, _, h⟩ <;> omega
      · simp only [loadLoop, hr, memRead_none _ s (by omega : memSize ≤ base + k), raise, List.length_cons, reduceCtorEq,
          or_false]
        rw [if_neg (by omega), max_eq_left (by omega : memSize ≤ base + k)]

/-! ## The instructions -/

theorem execDumpRegs_ok (x : RegId) (s : State) (h : unprotectedStart ≤ s.I.toNat) (h' : s.I.toNat + x.val < memSize) :
    execDumpRegs x s = .next (s.storeBlock s.I.toNat ((regsThrough x).map s.getV)) := by
  rw [execDumpRegs, dumpLoop_spec s.I.toNat (regsThrough x) 0 s (by rw [regsThrough_val, regsThrough_length]) h,
    regsThrough_length, if_pos (.inl (by omega))]
  rfl

theorem execLoadRegs_ok (x : RegId) (s : State) (h : s.I.toNat + x.val < memSize) :
    ∃ t, execLoadRegs x s = .next t ∧ SameButV s t ∧
      ∀ r, t.getV r = if r ≤ x then s.byteAt (s.I.toNat + r.val) else s.getV r := by
  obtain ⟨t, h1, h2, h3⟩ := loadLoop_spec s.I.toNat (regsThrough x) 0 s (by rw [regsThrough_val, regsThrough_length])
  refine ⟨t, ?_, h1, fun r => ?_⟩
  · rw [execLoadRegs, h3, regsThrough_length, if_pos (.inl (by omega))]
  · simp only [h2, mem_regsThrough]
    by_cases hr : r ≤ x
    · have : r.val ≤ x.val := hr
      rw [if_pos ⟨hr, by omega⟩, if_pos hr]
    · rw [if_neg (fun hh => hr hh.1), if_neg hr]

/-- Fx33 inside the program region stores the three digits (R124). -/
theorem execLdB_ok (x : RegId) (s : State) (h : unprotectedStart ≤ s.I.toNat) (h' : s.I.toNat + 2 < memSize) :
    execLdB x s = .next (s.storeBlock s.I.toNat
      [(bcdDigits (s.getV x)).1, (bcdDigits (s.getV x)).2.1, (bcdDigits (s.getV x)).2.2]) := by
  have h1 : ¬ memSize ≤ s.indexed 2 := by simp only [State.indexed]; omega
  have h2 : ¬ s.indexed 0 < unprotectedStart := by simp only [State.indexed]; omega
  simp only [execLdB, if_neg h1, if_neg h2]
  simp only [State.indexed, Nat.add_zero]
  rw [writeByteThen_ok _ _ _ _ (by omega) (by omega), writeByteThen_ok _ _ _ _ (by omega) (by omega),
    writeByteThen_ok _ _ _ _ (by omega) (by omega)]
  rfl

/-- Fx33 past the end of memory fails before the protection check, and writes nothing (R124). -/
theorem execLdB_pastEnd (x : RegId) (s : State) (h : memSize ≤ s.I.toNat + 2) :
    execLdB x s = .fault (.invalidMemoryAccess (s.I.toNat + 2) s) := by
  rw [show execLdB x s = if memSize ≤ s.indexed 2 then _ else _ from rfl]
  exact if_pos h

/-- Fx33 below the boundary fails and writes nothing (R124). -/
theorem execLdB_protected (x : RegId) (s : State) (h : s.I.toNat + 2 < memSize) (h' : s.I.toNat < unprotectedStart) :
    execLdB x s = .fault (.invalidMemoryAccess s.I.toNat s) := by
  rw [show execLdB x s = if memSize ≤ s.indexed 2 then _ else if s.indexed 0 < unprotectedStart then _ else _ from rfl]
  exact (if_neg (Nat.not_le.mpr h)).trans (if_pos h')

/-- Fx55 below the boundary fails and writes nothing (R125). -/
theorem execDumpRegs_protected (x : RegId) (s : State) (h : s.I.toNat < unprotectedStart) :
    execDumpRegs x s = .fault (.invalidMemoryAccess s.I.toNat s) := by
  have hx : regsThrough x = 0 :: (regsThrough x).tail := by revert x; decide
  rw [execDumpRegs, hx, dumpLoop_low]
  · rfl
  · simpa using h

/-- Fx55 past the end of memory keeps the registers that fit and reports the first address that does not exist (R125). -/
theorem execDumpRegs_pastEnd (x : RegId) (s : State) (h : unprotectedStart ≤ s.I.toNat) (h' : memSize ≤ s.I.toNat + x.val) :
    execDumpRegs x s = .fault (.invalidMemoryAccess (max s.I.toNat memSize)
      (s.storeBlock s.I.toNat (((regsThrough x).take (memSize - s.I.toNat)).map s.getV))) := by
  have hne : regsThrough x ≠ [] := fun hx => by simpa [regsThrough_length] using congrArg List.length hx
  rw [execDumpRegs, dumpLoop_spec s.I.toNat (regsThrough x) 0 s (by rw [regsThrough_val, regsThrough_length]) h,
    regsThrough_length, if_neg (fun hh => hh.elim (by omega) hne)]
  rfl

/-- The byte a block dump leaves at I + r is register r, for every register among those stored (R125). -/
theorem byteAt_dumped (x : RegId) (s : State) (hm : Memory.wf s.mem) (r : RegId) (n : Nat) (hr : r.val < n) (hx : r ≤ x) :
    (s.storeBlock s.I.toNat (((regsThrough x).take n).map s.getV)).byteAt (s.I.toNat + r.val) = s.getV r := by
  have hx' : r.val ≤ x.val := hx
  have hl : r.val < (((regsThrough x).take n).map s.getV).length := by simp [regsThrough_length]; omega
  rw [byteAt_storeBlock s _ _ _ hm hl]
  simp only [List.getElem_map, List.getElem_take]
  exact congrArg s.getV (Fin.ext (regsThrough_getElem x r.val _))

end Sys2Proof.Machine
end

