-- ==== Sys2Proof/Laws/Draw.lean ====
section
/-! SUPPORT. What composing and drawing do (43_display_input_timers.md R111, R113): every pixel, the collision, the dirty flag,
and nothing else. -/

namespace Sys2Proof.Machine

/-! ## Coordinates -/

theorem wrapX_eq_iff (a b : Nat) : wrapX a = wrapX b ↔ a % 64 = b % 64 := by
  simp [wrapX, Fin.ext_iff, Fin.ofNat]

theorem wrapY_eq_iff (a b : Nat) : wrapY a = wrapY b ↔ a % 32 = b % 32 := by
  simp [wrapY, Fin.ext_iff, Fin.ofNat]

/-- Two columns of one sprite row never wrap to one screen column (R113). -/
theorem wrapX_add_inj (x i j : Nat) (hi : i < 8) (hj : j < 8) : wrapX (x + i) = wrapX (x + j) ↔ i = j := by
  rw [wrapX_eq_iff]; omega

/-- Two rows of one sprite never wrap to one screen row (R113). -/
theorem wrapY_add_inj (y i j : Nat) (hi : i < 16) (hj : j < 16) : wrapY (y + i) = wrapY (y + j) ↔ i = j := by
  rw [wrapY_eq_iff]; omega

/-- R111: an On pixel becomes Off exactly when an On pixel is composed on it. -/
theorem collision_iff (old p : Pixel) : (old == .on && old.xor p == .off) = true ↔ old = .on ∧ p = .on := by
  cases old <;> cases p <;> decide

@[simp] theorem Pixel.xor_off (p : Pixel) : p.xor .off = p := by cases p <;> rfl

@[simp] theorem Pixel.off_xor (p : Pixel) : Pixel.off.xor p = p := rfl

@[simp] theorem Pixel.xor_self (p : Pixel) : p.xor p = .off := by cases p <;> rfl

theorem Pixel.xor_xor_self (p q : Pixel) : (p.xor q).xor q = p := by cases p <;> cases q <;> rfl

/-! ## What only the screen may change -/

/-- The states differ in the pixels and the dirty flag at most. -/
def SameButScreen (s t : State) : Prop := t = { s with pix := t.pix, dirty := t.dirty }

theorem SameButScreen.refl (s : State) : SameButScreen s s := rfl

theorem SameButScreen.trans {s t u : State} (h : SameButScreen s t) (h' : SameButScreen t u) : SameButScreen s u := by
  unfold SameButScreen at *; rw [h'] ; rw [h]

theorem compose_same (x y : Nat) (p : Pixel) (s : State) : SameButScreen s (compose x y p s).1 := rfl

theorem compose_pixel (x y : Nat) (p : Pixel) (s : State) (u : Fin Config.screenW) (v : Fin Config.screenH) :
    (compose x y p s).1.pixel u v =
      if wrapX x = u ∧ wrapY y = v then (s.pixel (wrapX x) (wrapY y)).xor p else s.pixel u v := by
  simp only [compose, State.setDirty_pixel, State.pixel_setPixel]

@[simp] theorem compose_dirty (x y : Nat) (p : Pixel) (s : State) : (compose x y p s).1.dirty = true := rfl

theorem compose_collision (x y : Nat) (p : Pixel) (s : State) :
    (compose x y p s).2 = true ↔ s.pixel (wrapX x) (wrapY y) = .on ∧ p = .on := collision_iff _ _

/-! ## One row -/

/-- Everything that drawing columns c to c + n - 1 of a row does. -/
theorem drawColumns_spec (x y : Nat) (b : Byte) (n c : Nat) (acc : State × Bool) (h : c + n ≤ 8) :
    SameButScreen acc.1 (drawColumns x y b n c acc).1 ∧
    ((drawColumns x y b n c acc).1.dirty = if n = 0 then acc.1.dirty else true) ∧
    (∀ j, c ≤ j → j < c + n → (drawColumns x y b n c acc).1.pixel (wrapX (x + j)) (wrapY y) =
      (acc.1.pixel (wrapX (x + j)) (wrapY y)).xor (spritePixel b j)) ∧
    (∀ u v, (∀ j, c ≤ j → j < c + n → ¬(wrapX (x + j) = u ∧ wrapY y = v)) →
      (drawColumns x y b n c acc).1.pixel u v = acc.1.pixel u v) ∧
    ((drawColumns x y b n c acc).2 = true ↔ acc.2 = true ∨
      ∃ j, c ≤ j ∧ j < c + n ∧ acc.1.pixel (wrapX (x + j)) (wrapY y) = .on ∧ spritePixel b j = .on) := by
  induction n generalizing c acc with
  | zero =>
    refine ⟨SameButScreen.refl _, rfl, fun j h1 h2 => by omega, fun _ _ _ => rfl, ?_⟩
    simp only [drawColumns]
    exact ⟨.inl, fun h => h.elim id fun ⟨j, h1, h2, _⟩ => by omega⟩
  | succ n ih =>
    obtain ⟨h1, h2, h3, h4, h5⟩ := ih (c + 1) (composeInto (x + c) y (spritePixel b c) acc) (by omega)
    simp only [drawColumns]
    have hpix : ∀ j, c + 1 ≤ j → j < c + 1 + n →
        (composeInto (x + c) y (spritePixel b c) acc).1.pixel (wrapX (x + j)) (wrapY y) =
          acc.1.pixel (wrapX (x + j)) (wrapY y) := fun j hj hj' => by
      rw [composeInto, compose_pixel, if_neg]
      rintro ⟨hx, -⟩
      rw [wrapX_add_inj x c j (by omega) (by omega)] at hx
      omega
    refine ⟨(compose_same _ _ _ _).trans h1, ?_, ?_, ?_, ?_⟩
    · rw [h2]; simp only [Nat.add_eq_zero_iff, Nat.one_ne_zero, and_false, if_false]
      split
      · exact compose_dirty _ _ _ _
      · rfl
    · intro j hj hj'
      by_cases hcj : j = c
      · subst hcj
        rw [h4 _ _ fun i hi hi' hij => by
          rw [wrapX_add_inj x i j (by omega) (by omega)] at hij; omega]
        rw [composeInto, compose_pixel, if_pos ⟨rfl, rfl⟩]
      · rw [h3 j (by omega) (by omega), hpix j (by omega) (by omega)]
    · intro u v huv
      rw [h4 u v fun j hj hj' => huv j (by omega) (by omega), composeInto, compose_pixel,
        if_neg (huv c (by omega) (by omega))]
    · rw [h5]
      constructor
      · rintro (h | ⟨j, hj, hj', hon, hb⟩)
        · simp only [composeInto, Bool.or_eq_true] at h
          rcases h with h | h
          · exact .inl h
          · rw [compose_collision] at h; exact .inr ⟨c, by omega, by omega, h⟩
        · rw [hpix j hj (by omega)] at hon; exact .inr ⟨j, by omega, by omega, hon, hb⟩
      · rintro (h | ⟨j, hj, hj', hon, hb⟩)
        · simp [composeInto, h]
        · by_cases hcj : j = c
          · subst hcj
            refine .inl ?_
            simp only [composeInto, Bool.or_eq_true]
            exact .inr ((compose_collision _ _ _ _).mpr ⟨hon, hb⟩)
          · exact .inr ⟨j, by omega, by omega, (hpix j (by omega) (by omega)).trans hon, hb⟩

/-! ## The whole sprite -/

/-- Everything that drawing the rows of a sprite does: row r of `rows` is drawn at y + r. -/
theorem drawRows_spec (x : Nat) (rows : List Byte) (y : Nat) (acc : State × Bool) (h : rows.length ≤ 16) :
    SameButScreen acc.1 (drawRows x y rows acc).1 ∧
    ((drawRows x y rows acc).1.dirty = if rows = [] then acc.1.dirty else true) ∧
    (∀ r c, (hr : r < rows.length) → c < 8 → (drawRows x y rows acc).1.pixel (wrapX (x + c)) (wrapY (y + r)) =
      (acc.1.pixel (wrapX (x + c)) (wrapY (y + r))).xor (spritePixel rows[r] c)) ∧
    (∀ u v, (∀ r c, r < rows.length → c < 8 → ¬(wrapX (x + c) = u ∧ wrapY (y + r) = v)) →
      (drawRows x y rows acc).1.pixel u v = acc.1.pixel u v) ∧
    ((drawRows x y rows acc).2 = true ↔ acc.2 = true ∨ ∃ r c, ∃ hr : r < rows.length, c < 8 ∧
      acc.1.pixel (wrapX (x + c)) (wrapY (y + r)) = .on ∧ spritePixel rows[r] c = .on) := by
  induction rows generalizing y acc with
  | nil =>
    refine ⟨SameButScreen.refl _, rfl, fun r c hr => by simp at hr, fun _ _ _ => rfl, ?_⟩
    simp [drawRows]
  | cons b rows ih =>
    simp only [List.length_cons] at h
    obtain ⟨g1, g2, g3, g4, g5⟩ := drawColumns_spec x y b 8 0 acc (by omega)
    obtain ⟨h1, h2, h3, h4, h5⟩ := ih (y + 1) (drawColumns x y b 8 0 acc) (by omega)
    simp only [drawRows]
    have hpix : ∀ r c, r < rows.length → c < 8 →
        (drawColumns x y b 8 0 acc).1.pixel (wrapX (x + c)) (wrapY (y + 1 + r)) =
          acc.1.pixel (wrapX (x + c)) (wrapY (y + 1 + r)) := fun r c hr hc => by
      refine g4 _ _ fun j hj hj' hxy => ?_
      have := (wrapY_add_inj y 0 (1 + r) (by omega) (by omega)).mp (by simpa [Nat.add_assoc] using hxy.2)
      omega
    refine ⟨g1.trans h1, ?_, ?_, ?_, ?_⟩
    · rw [h2]; split
      · rw [g2]; simp
      · simp
    · intro r c hr hc
      cases r with
      | zero =>
        rw [h4 _ _ fun i j hi hj hij => ?_]
        · exact g3 c (by omega) (by omega)
        · have := (wrapY_add_inj y (1 + i) 0 (by omega) (by omega)).mp (by simpa [Nat.add_assoc] using hij.2)
          omega
      | succ r =>
        have hr' : r < rows.length := by simpa using hr
        have := h3 r c hr' hc
        rw [hpix r c hr' hc] at this
        rw [show y + (r + 1) = y + 1 + r by omega]
        simpa using this
    · intro u v huv
      rw [h4 u v fun r c hr hc hrc => huv (r + 1) c (by simpa using hr) hc
          ⟨hrc.1, by rw [show y + (r + 1) = y + 1 + r by omega]; exact hrc.2⟩,
        g4 u v fun j _ hj hxy => huv 0 j (by simp) (by omega) (by simpa using hxy)]
    · rw [h5, g5]
      constructor
      · rintro ((h | ⟨j, _, hj, hon, hb⟩) | ⟨r, c, hr, hc, hon, hb⟩)
        · exact .inl h
        · exact .inr ⟨0, j, by simp, by omega, by simpa using hon, by simpa using hb⟩
        · rw [hpix r c hr hc] at hon
          exact .inr ⟨r + 1, c, by simpa using hr, hc,
            by rw [show y + (r + 1) = y + 1 + r by omega]; exact hon, by simpa using hb⟩
      · rintro (h | ⟨r, c, hr, hc, hon, hb⟩)
        · exact .inl (.inl h)
        · cases r with
          | zero => exact .inl (.inr ⟨c, by omega, by omega, by simpa using hon, by simpa using hb⟩)
          | succ r =>
            have hr' : r < rows.length := by simpa using hr
            refine .inr ⟨r, c, hr', hc, ?_, by simpa using hb⟩
            rw [hpix r c hr' hc, show y + 1 + r = y + (r + 1) by omega]; exact hon

end Sys2Proof.Machine
end

