-- ==== Sys2Proof/Laws/Encoding.lean ====
section
/-! SUPPORT. The bit-field lemmas of the encoding: fields of a word in one of the formats of R62, and which rows of the opcode
table select it. -/

namespace Sys2Proof

/-! ## Appends -/

theorem append_and_append {n m : Nat} (a c : BitVec n) (b d : BitVec m) :
    (a ++ b) &&& (c ++ d) = (a &&& c) ++ (b &&& d) := by
  ext i hi
  simp only [BitVec.getElem_and, BitVec.getElem_append]
  split <;> simp

theorem extract_append_high {n m : Nat} (a : BitVec n) (b : BitVec m) : (a ++ b).extractLsb' m n = a := by
  ext i hi
  simp [BitVec.getElem_extractLsb', BitVec.getLsbD_append, BitVec.getLsbD_eq_getElem hi]

theorem extract_append_low {n m : Nat} (a : BitVec n) (b : BitVec m) : (a ++ b).extractLsb' 0 m = b := by
  ext i hi
  simp [BitVec.getElem_extractLsb', BitVec.getLsbD_append, hi]

theorem append_eq_append {n m : Nat} (a c : BitVec n) (b d : BitVec m) : (a ++ b = c ++ d) ↔ a = c ∧ b = d := by
  refine ⟨fun h => ⟨?_, ?_⟩, by rintro ⟨rfl, rfl⟩; rfl⟩
  · have := congrArg (BitVec.extractLsb' m n) h
    rwa [extract_append_high, extract_append_high] at this
  · have := congrArg (BitVec.extractLsb' 0 m) h
    rwa [extract_append_low, extract_append_low] at this

theorem append_extract {n m : Nat} (w : BitVec (n + m)) : w.extractLsb' m n ++ w.extractLsb' 0 m = w := by
  ext i hi
  simp only [BitVec.getElem_append, BitVec.getElem_extractLsb']
  split
  · simp [BitVec.getLsbD_eq_getElem hi]
  · rw [← BitVec.getLsbD_eq_getElem hi]; congr 1; omega

/-- A word is its first nibble and the other twelve bits. -/
theorem word_split (w : Word) : w = w.extractLsb' 12 4 ++ w.extractLsb' 0 12 := (append_extract (n := 4) (m := 12) w).symm

/-- Twelve bits are a nibble and a byte. -/
theorem low_split (v : Addr12) : v = v.extractLsb' 8 4 ++ v.extractLsb' 0 8 := (append_extract (n := 4) (m := 8) v).symm

/-- A byte is two nibbles. -/
theorem byte_split (v : Byte) : v = v.extractLsb' 4 4 ++ v.extractLsb' 0 4 := (append_extract (n := 4) (m := 4) v).symm

/-! ## Fields of a word (R61) -/

@[simp] theorem nnnField_formatA (op : Nibble) (lo : Addr12) : nnnField (formatA op lo) = lo := extract_append_low op lo

@[simp] theorem xField_formatA (op : Nibble) (x : RegId) (kk : Byte) :
    xField (formatA op (joinLow (BitVec.ofFin x) kk)) = x := by
  have : (formatA op (joinLow (BitVec.ofFin x) kk)).extractLsb' 8 4 = BitVec.ofFin x := by
    ext i hi
    unfold formatA joinLow
    rw [BitVec.getElem_extractLsb', BitVec.getLsbD_append, if_pos (by omega), BitVec.getLsbD_append,
      if_neg (by omega), ← BitVec.getLsbD_eq_getElem]
    congr 1; omega
  unfold xField; rw [this]

@[simp] theorem kkField_formatA (op a : Nibble) (kk : Byte) : kkField (formatA op (joinLow a kk)) = kk := by
  ext i hi
  unfold kkField formatA joinLow
  rw [BitVec.getElem_extractLsb', BitVec.getLsbD_append, if_pos (by omega), BitVec.getLsbD_append,
    if_pos (by omega), ← BitVec.getLsbD_eq_getElem]
  congr 1; omega

/-- y and n are the two nibbles of kk. -/
theorem yField_eq (w : Word) : yField w = ((kkField w).extractLsb' 4 4).toFin := by
  have : w.extractLsb' 4 4 = (kkField w).extractLsb' 4 4 := by
    ext i hi; unfold kkField; simp [BitVec.getElem_extractLsb']
  unfold yField; rw [this]

theorem nField_eq (w : Word) : nField w = (kkField w).extractLsb' 0 4 := by
  ext i hi; unfold nField kkField; simp [BitVec.getElem_extractLsb']

@[simp] theorem yField_formatA (op a : Nibble) (y : RegId) (n : Nibble) :
    yField (formatA op (joinLow a (joinByte (BitVec.ofFin y) n))) = y := by
  rw [yField_eq, kkField_formatA, joinByte, extract_append_high]

@[simp] theorem nField_formatA (op a b n : Nibble) : nField (formatA op (joinLow a (joinByte b n))) = n := by
  rw [nField_eq, kkField_formatA, joinByte, extract_append_low]

/-! ## Row selection (R63) -/

/-- A row whose mask fixes the first nibble tests that nibble and the other twelve bits apart. -/
theorem selects_formatA (r : OpcodeRow) (op : Nibble) (lo : Addr12) (h : r.mask.extractLsb' 12 4 = 0xF#4) :
    r.selects (formatA op lo) = (op == r.pattern.extractLsb' 12 4 &&
      lo &&& r.mask.extractLsb' 0 12 == r.pattern.extractLsb' 0 12) := by
  obtain ⟨mask, pat, b⟩ := r
  simp only [OpcodeRow.selects, formatA] at *
  rw [Bool.eq_iff_iff]
  simp only [beq_iff_eq, Bool.and_eq_true]
  conv_lhs => rw [word_split mask, word_split pat, h]
  rw [append_and_append, append_eq_append, show op &&& 15#4 = op from BitVec.and_allOnes]

/-- The test of a row of mask 0xF0FF on the low twelve bits: the last byte alone. -/
theorem low_byte_test (a : Nibble) (kk : Byte) (k : Addr12) :
    (joinLow a kk &&& 255#12 = k) ↔ k.extractLsb' 8 4 = 0#4 ∧ kk = k.extractLsb' 0 8 := by
  unfold joinLow
  conv_lhs => rw [low_split k, show (255#12) = (0#4 ++ 255#8 : BitVec 12) from rfl]
  rw [append_and_append, append_eq_append, show kk &&& 255#8 = kk from BitVec.and_allOnes, BitVec.and_zero]
  exact and_congr_left fun _ => eq_comm

/-- The test of a row of mask 0xF00F on the low twelve bits: the last nibble alone. -/
theorem low_nibble_test (a b n : Nibble) (k : Addr12) :
    (joinLow a (joinByte b n) &&& 15#12 = k) ↔
      k.extractLsb' 8 4 = 0#4 ∧ (k.extractLsb' 0 8).extractLsb' 4 4 = 0#4 ∧ n = (k.extractLsb' 0 8).extractLsb' 0 4 := by
  unfold joinLow joinByte
  conv_lhs =>
    rw [low_split k, byte_split (k.extractLsb' 0 8), show (15#12) = (0#4 ++ (0#4 ++ 15#4) : BitVec 12) from rfl]
  rw [append_and_append, append_and_append, append_eq_append, append_eq_append,
    show n &&& 15#4 = n from BitVec.and_allOnes, BitVec.and_zero, BitVec.and_zero]
  exact and_congr eq_comm (and_congr_left fun _ => eq_comm)

/-! ## The register conversion (R19, R68) -/

/-- Every 4-bit value is a register identifier, so InvalidDataRegister is never raised. -/
theorem regOfNibble_total (n : Nibble) : regOfNibble n.toNat = some n.toFin := by
  have h : n.toNat < 16 := n.isLt
  simp only [regOfNibble, h, dite_true]; rfl

/-! ## Bytes (R50) -/

@[simp] theorem wordOfBytes_bytesOfWord (w : Word) : wordOfBytes (w.extractLsb' 8 8) (w.extractLsb' 0 8) = w :=
  append_extract (n := 8) (m := 8) w

/-- The byte at the lower address holds bits 15..8 (R50). -/
theorem wordOfBytes_toNat (hi lo : Byte) : (wordOfBytes hi lo).toNat = hi.toNat * 256 + lo.toNat := by
  have h := lo.isLt
  simp only [wordOfBytes, BitVec.toNat_append]
  rw [← Nat.shiftLeft_add_eq_or_of_lt h, Nat.shiftLeft_eq]

/-- The decoder on the bytes of a word and anything behind them. -/
theorem decode_bytesOfWord (w : Word) (rest : List Byte) :
    decode (bytesOfWord w ++ rest) =
      match decodeWord w with
      | some i => .ok (i, rest)
      | none => .error (.invalidInstruction w) := by
  cases h : decodeWord w <;> simp [bytesOfWord, decode, h]

end Sys2Proof
end

