-- ==== Sys2Proof/Laws/PerInstr.lean ====
section
/-! SUPPORT. The family `Encoding`: the word of a well-formed instruction decodes to it (R62 to R65), one lemma per constructor. -/

namespace Sys2Proof.Laws.Encoding

/-- What the family says of an instruction as syntax. -/
def Statement (i : Instr) : Prop := i.wf = true → decodeWord (encodeWord i) = some i

theorem cls : Statement .cls := fun _ => by decide

theorem ret : Statement .ret := fun _ => by decide

theorem sys (nnn : Addr12) : Statement (.sys nnn) := fun h => by
  simp only [Instr.wf, Bool.and_eq_true, bne_iff_ne] at h
  have hm : nnn &&& 4095#12 = nnn := BitVec.and_allOnes
  simp [encodeWord, decodeWord, decodeRows, opcodeTable, opcodeRows1, opcodeRows2, opcodeRows3, selects_formatA, hm, h]

theorem jp (nnn : Addr12) : Statement (.jp nnn) := fun _ => by
  simp [encodeWord, decodeWord, decodeRows, opcodeTable, opcodeRows1, opcodeRows2, opcodeRows3, selects_formatA]

theorem call (nnn : Addr12) : Statement (.call nnn) := fun _ => by
  simp [encodeWord, decodeWord, decodeRows, opcodeTable, opcodeRows1, opcodeRows2, opcodeRows3, selects_formatA]

theorem seImm (x : RegId) (kk : Byte) : Statement (.seImm x kk) := fun _ => by
  simp [encodeWord, formatXK, decodeWord, decodeRows, opcodeTable, opcodeRows1, opcodeRows2, opcodeRows3, selects_formatA]

theorem sneImm (x : RegId) (kk : Byte) : Statement (.sneImm x kk) := fun _ => by
  simp [encodeWord, formatXK, decodeWord, decodeRows, opcodeTable, opcodeRows1, opcodeRows2, opcodeRows3, selects_formatA]

theorem seReg (x y : RegId) : Statement (.seReg x y) := fun _ => by
  simp [encodeWord, formatXYN, formatXK, low_nibble_test, decodeWord, decodeRows, opcodeTable, opcodeRows1, opcodeRows2, opcodeRows3, selects_formatA]

theorem ldImm (x : RegId) (kk : Byte) : Statement (.ldImm x kk) := fun _ => by
  simp [encodeWord, formatXK, decodeWord, decodeRows, opcodeTable, opcodeRows1, opcodeRows2, opcodeRows3, selects_formatA]

theorem addImm (x : RegId) (kk : Byte) : Statement (.addImm x kk) := fun _ => by
  simp [encodeWord, formatXK, decodeWord, decodeRows, opcodeTable, opcodeRows1, opcodeRows2, opcodeRows3, selects_formatA]

theorem ldReg (x y : RegId) : Statement (.ldReg x y) := fun _ => by
  simp [encodeWord, formatXYN, formatXK, low_nibble_test, decodeWord, decodeRows, opcodeTable, opcodeRows1, opcodeRows2, opcodeRows3, selects_formatA]

theorem orReg (x y : RegId) : Statement (.orReg x y) := fun _ => by
  simp [encodeWord, formatXYN, formatXK, low_nibble_test, decodeWord, decodeRows, opcodeTable, opcodeRows1, opcodeRows2, opcodeRows3, selects_formatA]

theorem andReg (x y : RegId) : Statement (.andReg x y) := fun _ => by
  simp [encodeWord, formatXYN, formatXK, low_nibble_test, decodeWord, decodeRows, opcodeTable, opcodeRows1, opcodeRows2, opcodeRows3, selects_formatA]

theorem xorReg (x y : RegId) : Statement (.xorReg x y) := fun _ => by
  simp [encodeWord, formatXYN, formatXK, low_nibble_test, decodeWord, decodeRows, opcodeTable, opcodeRows1, opcodeRows2, opcodeRows3, selects_formatA]

theorem addReg (x y : RegId) : Statement (.addReg x y) := fun _ => by
  simp [encodeWord, formatXYN, formatXK, low_nibble_test, decodeWord, decodeRows, opcodeTable, opcodeRows1, opcodeRows2, opcodeRows3, selects_formatA]

theorem subReg (x y : RegId) : Statement (.subReg x y) := fun _ => by
  simp [encodeWord, formatXYN, formatXK, low_nibble_test, decodeWord, decodeRows, opcodeTable, opcodeRows1, opcodeRows2, opcodeRows3, selects_formatA]

theorem shrReg (x y : RegId) : Statement (.shrReg x y) := fun _ => by
  simp [encodeWord, formatXYN, formatXK, low_nibble_test, decodeWord, decodeRows, opcodeTable, opcodeRows1, opcodeRows2, opcodeRows3, selects_formatA]

theorem subnReg (x y : RegId) : Statement (.subnReg x y) := fun _ => by
  simp [encodeWord, formatXYN, formatXK, low_nibble_test, decodeWord, decodeRows, opcodeTable, opcodeRows1, opcodeRows2, opcodeRows3, selects_formatA]

theorem shlReg (x y : RegId) : Statement (.shlReg x y) := fun _ => by
  simp [encodeWord, formatXYN, formatXK, low_nibble_test, decodeWord, decodeRows, opcodeTable, opcodeRows1, opcodeRows2, opcodeRows3, selects_formatA]

theorem sneReg (x y : RegId) : Statement (.sneReg x y) := fun _ => by
  simp [encodeWord, formatXYN, formatXK, low_nibble_test, decodeWord, decodeRows, opcodeTable, opcodeRows1, opcodeRows2, opcodeRows3, selects_formatA]

theorem ldI (nnn : Addr12) : Statement (.ldI nnn) := fun _ => by
  simp [encodeWord, decodeWord, decodeRows, opcodeTable, opcodeRows1, opcodeRows2, opcodeRows3, selects_formatA]

theorem jpV0 (nnn : Addr12) : Statement (.jpV0 nnn) := fun _ => by
  simp [encodeWord, decodeWord, decodeRows, opcodeTable, opcodeRows1, opcodeRows2, opcodeRows3, selects_formatA]

theorem rnd (x : RegId) (kk : Byte) : Statement (.rnd x kk) := fun _ => by
  simp [encodeWord, formatXK, decodeWord, decodeRows, opcodeTable, opcodeRows1, opcodeRows2, opcodeRows3, selects_formatA]

theorem drw (x y : RegId) (n : Nibble) : Statement (.drw x y n) := fun _ => by
  simp [encodeWord, formatXYN, formatXK, decodeWord, decodeRows, opcodeTable, opcodeRows1, opcodeRows2, opcodeRows3, selects_formatA]

theorem skp (x : RegId) : Statement (.skp x) := fun _ => by
  simp [encodeWord, formatXK, low_byte_test, decodeWord, decodeRows, opcodeTable, opcodeRows1, opcodeRows2, opcodeRows3, selects_formatA]

theorem sknp (x : RegId) : Statement (.sknp x) := fun _ => by
  simp [encodeWord, formatXK, low_byte_test, decodeWord, decodeRows, opcodeTable, opcodeRows1, opcodeRows2, opcodeRows3, selects_formatA]

theorem ldVxDT (x : RegId) : Statement (.ldVxDT x) := fun _ => by
  simp [encodeWord, formatXK, low_byte_test, decodeWord, decodeRows, opcodeTable, opcodeRows1, opcodeRows2, opcodeRows3, selects_formatA]

theorem ldVxK (x : RegId) : Statement (.ldVxK x) := fun _ => by
  simp [encodeWord, formatXK, low_byte_test, decodeWord, decodeRows, opcodeTable, opcodeRows1, opcodeRows2, opcodeRows3, selects_formatA]

theorem ldDTVx (x : RegId) : Statement (.ldDTVx x) := fun _ => by
  simp [encodeWord, formatXK, low_byte_test, decodeWord, decodeRows, opcodeTable, opcodeRows1, opcodeRows2, opcodeRows3, selects_formatA]

theorem ldSTVx (x : RegId) : Statement (.ldSTVx x) := fun _ => by
  simp [encodeWord, formatXK, low_byte_test, decodeWord, decodeRows, opcodeTable, opcodeRows1, opcodeRows2, opcodeRows3, selects_formatA]

theorem addI (x : RegId) : Statement (.addI x) := fun _ => by
  simp [encodeWord, formatXK, low_byte_test, decodeWord, decodeRows, opcodeTable, opcodeRows1, opcodeRows2, opcodeRows3, selects_formatA]

theorem ldF (x : RegId) : Statement (.ldF x) := fun _ => by
  simp [encodeWord, formatXK, low_byte_test, decodeWord, decodeRows, opcodeTable, opcodeRows1, opcodeRows2, opcodeRows3, selects_formatA]

theorem ldB (x : RegId) : Statement (.ldB x) := fun _ => by
  simp [encodeWord, formatXK, low_byte_test, decodeWord, decodeRows, opcodeTable, opcodeRows1, opcodeRows2, opcodeRows3, selects_formatA]

theorem dumpRegs (x : RegId) : Statement (.dumpRegs x) := fun _ => by
  simp [encodeWord, formatXK, low_byte_test, decodeWord, decodeRows, opcodeTable, opcodeRows1, opcodeRows2, opcodeRows3, selects_formatA]

theorem loadRegs (x : RegId) : Statement (.loadRegs x) := fun _ => by
  simp [encodeWord, formatXK, low_byte_test, decodeWord, decodeRows, opcodeTable, opcodeRows1, opcodeRows2, opcodeRows3, selects_formatA]

end Sys2Proof.Laws.Encoding
end

