-- ==== Sys2Proof/Laws/Step.lean ====
section
/-! SUPPORT. The sequencer's laws (40_sequencer.md): what a cycle does in each case, and the state an error leaves. -/

namespace Sys2Proof.Machine

/-! ## Frames -/

/-- A state that differs in the data registers at most. -/
theorem SameButV.unchanged {s t : State} (h : SameButV s t) : UnchangedBut [.regs] s t := by
  cases t
  simp only [SameButV, State.mk.injEq, true_and] at h
  obtain ⟨rfl, rfl, rfl, rfl, rfl, rfl, rfl, rfl, rfl, rfl, rfl, rfl, rfl⟩ := h
  intro p hp
  cases p <;> first | exact rfl | exact fun _ => rfl | exact fun _ _ => rfl | exact absurd List.mem_cons_self hp

/-- A state that differs in the screen at most. -/
theorem SameButScreen.unchanged {s t : State} (h : SameButScreen s t) : UnchangedBut [.pixels, .dirty] s t := by
  cases t
  simp only [SameButScreen, State.mk.injEq, true_and] at h
  obtain ⟨rfl, rfl, rfl, rfl, rfl, rfl, rfl, rfl, rfl, rfl, rfl, rfl⟩ := h
  intro p hp
  cases p <;> first | exact rfl | exact fun _ => rfl | exact absurd (by simp) hp

theorem UnchangedBut.refl (ps : List Part) (s : State) : UnchangedBut ps s s := by
  intro p _
  cases p <;> first | exact rfl | exact fun _ => rfl | exact fun _ _ => rfl

theorem UnchangedBut.mono {ps qs : List Part} {s t : State} (h : UnchangedBut ps s t) (hsub : ps ⊆ qs) :
    UnchangedBut qs s t := fun p hp => h p fun hp' => hp (hsub hp')

theorem Part.same_trans {p : Part} {s t u : State} (h : p.same s t) (h' : p.same t u) : p.same s u := by
  cases p <;> simp_all [Part.same]

theorem UnchangedBut.trans {ps qs : List Part} {s t u : State} (h : UnchangedBut ps s t) (h' : UnchangedBut qs t u) :
    UnchangedBut (ps ++ qs) s u := fun p hp =>
  Part.same_trans (h p fun hp' => hp (List.mem_append_left _ hp')) (h' p fun hp' => hp (List.mem_append_right _ hp'))

/-! ## Errors -/

@[simp] theorem Fault.after_mapAfter (f : Fault) (g : State → State) : (f.mapAfter g).after = g f.after := by
  cases f <;> rfl

@[simp] theorem Fault.code_mapAfter (f : Fault) (g : State → State) : (f.mapAfter g).code = f.code := by
  cases f <;> rfl

@[simp] theorem Fault.info_mapAfter (f : Fault) (g : State → State) : (f.mapAfter g).info = f.info := by
  cases f <;> rfl

/-! ## The cycle (R73 to R76) -/

theorem transact_cycle (s : State) : transact .cycle s = cycle s := rfl

theorem cycle_blocked (s : State) (x : RegId) (h : s.blocked = .waitingKey x) : cycle s = .next s := by
  simp [cycle, h]

theorem cycle_notBlocked (s : State) (h : s.blocked = .notBlocked) : cycle s = finishCycle (fetchDecodeExecute s) := by
  simp [cycle, h]

theorem fetchDecodeExecute_unfetchable (s : State) (h : fetch s.pc.toNat s = none) :
    fetchDecodeExecute s = .fault (.invalidMemoryAccess s.pc.toNat s) := by simp [fetchDecodeExecute, h, raise]

theorem fetchDecodeExecute_undecodable (s : State) (w : Word) (h : fetch s.pc.toNat s = some w)
    (h' : decodeWord w = none) : fetchDecodeExecute s = .fault (.invalidInstruction w s) := by
  simp [fetchDecodeExecute, h, h', raise]

theorem fetchDecodeExecute_runs (s : State) (w : Word) (i : Instr) (h : fetch s.pc.toNat s = some w)
    (h' : decodeWord w = some i) : fetchDecodeExecute s = exec i s := by simp [fetchDecodeExecute, h, h']

/-- Everything a cycle that is not blocked starts with. -/
theorem fetchDecodeExecute_cases (s : State) :
    (fetch s.pc.toNat s = none ∧ fetchDecodeExecute s = .fault (.invalidMemoryAccess s.pc.toNat s)) ∨
    (∃ w, fetch s.pc.toNat s = some w ∧ decodeWord w = none ∧
      fetchDecodeExecute s = .fault (.invalidInstruction w s)) ∨
    (∃ w i, fetch s.pc.toNat s = some w ∧ decodeWord w = some i ∧ fetchDecodeExecute s = exec i s) := by
  cases h : fetch s.pc.toNat s with
  | none => exact .inl ⟨rfl, fetchDecodeExecute_unfetchable s h⟩
  | some w =>
    cases h' : decodeWord w with
    | none => exact .inr (.inl ⟨w, rfl, h', fetchDecodeExecute_undecodable s w h h'⟩)
    | some i => exact .inr (.inr ⟨w, i, rfl, h', fetchDecodeExecute_runs s w i h h'⟩)

theorem finishCycle_next_iff (r : Result) (t : State) : finishCycle r = .next t ↔ ∃ u, r = .next u ∧ t = u.endCycle := by
  cases r <;> simp [finishCycle, eq_comm]

theorem finishCycle_fault_iff (r : Result) (f : Fault) :
    finishCycle r = .fault f ↔ ∃ g, r = .fault g ∧ f = g.mapAfter State.clearJump := by
  cases r <;> simp [finishCycle, eq_comm]

/-! ## The host's calls (R71) -/

theorem step_of_noCalls (s : State) (h : s.hostCalls = []) : step s = cycle s := by simp [step, nextTransaction, h]

theorem step_of_call (s : State) (t : Transaction) (ts : List Transaction) (h : s.hostCalls = t :: ts) :
    step s = transact t { s with hostCalls := ts } := by simp [step, nextTransaction, h]

/-! ## Runs of the machine -/

theorem run_succ (M : Host.Core) (n : Nat) (s t : M.State) (h : M.step s = .next t) : M.run (n + 1) s = M.run n t := by
  simp [Host.Core.run, h]

theorem run_fault (M : Host.Core) (n : Nat) (s : M.State) (f : M.Fault) (h : M.step s = .fault f) :
    M.run (n + 1) s = .fault f := by
  simp [Host.Core.run, h]

/-- A step that succeeds is the first step of a run. -/
theorem core_run_succ (n : Nat) (s t : State) (h : step s = .next t) : core.run (n + 1) s = core.run n t :=
  run_succ core n s t h

/-- An error ends a run. -/
theorem core_run_fault (n : Nat) (s : State) (f : Fault) (h : step s = .fault f) : core.run (n + 1) s = .fault f :=
  run_fault core n s f h

/-! ## The state a transaction leaves -/

theorem leaves_next {s t : State} (h : Leaves (.next s) t) : t = s := by
  rcases h with h | ⟨f, h, -⟩
  · exact (Host.Outcome.next.inj h).symm
  · simp at h

theorem leaves_fault {f : Fault} {t : State} (h : Leaves (.fault f) t) : t = f.after := by
  rcases h with h | ⟨g, h, rfl⟩
  · simp at h
  · exact congrArg Fault.after (Host.Outcome.fault.inj h).symm

/-! ## Stores -/

theorem storeBlock_wf (s : State) (a : Nat) (bs : List Byte) (h : Memory.wf s.mem) (h' : a + bs.length ≤ memSize) :
    Memory.wf (s.storeBlock a bs).mem := Memory.writeBlock_wf bs s.mem a h h'

theorem storeBlock_unchanged (s : State) (a : Nat) (bs : List Byte) : UnchangedBut [.memory] s (s.storeBlock a bs) := by
  intro p hp
  cases p <;> first | exact rfl | exact fun _ => rfl | exact fun _ _ => rfl | exact absurd List.mem_cons_self hp

/-- Every byte after a store. -/
theorem byteAt_storeBlock_overlaid (s : State) (a : Nat) (bs : List Byte) (hm : Memory.wf s.mem) (b : Nat) :
    (s.storeBlock a bs).byteAt b = overlaid a bs s b := by
  unfold overlaid
  by_cases h : a ≤ b
  · obtain ⟨j, rfl⟩ := Nat.exists_eq_add_of_le h
    rw [if_pos h, Nat.add_sub_cancel_left]
    by_cases hj : j < bs.length
    · rw [byteAt_storeBlock s a j bs hm hj, List.getD_eq_getElem _ _ hj]
    · rw [byteAt_storeBlock_other _ _ _ _ (.inr (by omega)), List.getD_eq_default _ _ (by omega)]
  · rw [if_neg h, byteAt_storeBlock_other _ _ _ _ (.inl (by omega))]

/-- A memory whose bytes are the overlaid ones is fetched so (R58). -/
theorem fetchSees_of_bytes {a : Nat} {bs : List Byte} {s t : State}
    (h : ∀ b, 0x200 ≤ b → b < 4096 → t.byteAt b = overlaid a bs s b) : FetchSees a bs s t := fun b hb hb' =>
  ⟨_, fetch_ok b t hb hb', by rw [wordOfBytes_toNat, h b hb (by omega), h (b + 1) (by omega) hb']⟩

/-! ## What the storing and loading instructions leave, on Ok and on Err (R124 to R126) -/

/-- Fx33 leaves its state with a store of the three digits at I, or as it was. -/
theorem execLdB_leaves (x : RegId) (s t : State) (h : Leaves (execLdB x s) t) :
    t = s ∨ (unprotectedStart ≤ s.I.toNat ∧ s.I.toNat + 2 < memSize ∧ t = s.storeBlock s.I.toNat
      [(bcdDigits (s.getV x)).1, (bcdDigits (s.getV x)).2.1, (bcdDigits (s.getV x)).2.2]) := by
  by_cases h1 : memSize ≤ s.I.toNat + 2
  · rw [execLdB_pastEnd x s h1] at h; exact .inl (leaves_fault h)
  · by_cases h2 : s.I.toNat < unprotectedStart
    · rw [execLdB_protected x s (by omega) h2] at h; exact .inl (leaves_fault h)
    · rw [execLdB_ok x s (by omega) (by omega)] at h; exact .inr ⟨by omega, by omega, leaves_next h⟩

/-- Fx55 leaves its state as it was if I is protected, and otherwise with the registers that fit stored from I on. -/
theorem execDumpRegs_leaves (x : RegId) (s t : State) (h : Leaves (execDumpRegs x s) t) :
    (s.I.toNat < unprotectedStart ∧ t = s) ∨ (unprotectedStart ≤ s.I.toNat ∧
      t = s.storeBlock s.I.toNat (((regsThrough x).take (memSize - s.I.toNat)).map s.getV)) := by
  by_cases h1 : s.I.toNat < unprotectedStart
  · rw [execDumpRegs_protected x s h1] at h; exact .inl ⟨h1, leaves_fault h⟩
  · refine .inr ⟨by omega, ?_⟩
    by_cases h2 : memSize ≤ s.I.toNat + x.val
    · rw [execDumpRegs_pastEnd x s (by omega) h2] at h; exact leaves_fault h
    · rw [execDumpRegs_ok x s (by omega) (by omega)] at h
      rw [List.take_of_length_le (by rw [regsThrough_length]; omega)]; exact leaves_next h

/-- Fx65 changes the registers up to Vx whose byte exists, to that byte, and nothing else. -/
theorem execLoadRegs_leaves (x : RegId) (s t : State) (h : Leaves (execLoadRegs x s) t) :
    SameButV s t ∧
      ∀ r, t.getV r = if r ≤ x ∧ s.I.toNat + r.val < memSize then s.byteAt (s.I.toNat + r.val) else s.getV r := by
  obtain ⟨u, h1, h2, h3⟩ := loadLoop_spec s.I.toNat (regsThrough x) 0 s (by rw [regsThrough_val, regsThrough_length])
  have hu : t = u := by
    rw [execLoadRegs, h3] at h
    split at h
    · exact leaves_next h
    · exact leaves_fault h
  subst hu
  exact ⟨h1, fun r => by simp only [h2, mem_regsThrough]⟩

/-! ## The font install (R145) -/

theorem font_length : font.length = 80 := by decide

/-- The install cannot fail. -/
theorem installFont_eq (s : State) : installFont s = s.storeBlock fontBase font := by
  rw [installFont, memWriteUnrestricted, if_neg (by rw [font_length]; decide)]

theorem resetCore_wf (s : State) : Memory.wf (resetCore s).mem := ⟨List.Pairwise.nil, fun _ h => absurd h List.not_mem_nil⟩

theorem installFont_wf (s : State) : Memory.wf (installFont (resetCore s)).mem := by
  rw [installFont_eq]
  exact storeBlock_wf _ _ _ (resetCore_wf s) (by rw [font_length]; decide)

/-- After the install of a program load the memory holds the font and zeros. -/
theorem installFont_byteAt (s : State) (b : Nat) : (installFont (resetCore s)).byteAt b = font.getD b 0 := by
  rw [installFont_eq]
  by_cases hb : b < font.length
  · have h := byteAt_storeBlock (resetCore s) fontBase b font (resetCore_wf s) hb
    rw [fontBase, Nat.zero_add] at h
    rw [fontBase, h, List.getD_eq_getElem _ _ hb]
  · rw [byteAt_storeBlock_other _ _ _ _ (.inr (by simp only [fontBase]; omega)), List.getD_eq_default _ _ (by omega)]
    rfl

theorem installFont_unchanged (s : State) : UnchangedBut [.memory] s (installFont s) := by
  rw [installFont_eq]
  exact storeBlock_unchanged _ _ _

/-! ## Placing an instruction (log 4) -/

theorem placeAddress_fetchable (s : State) : fetchable (placeAddress s).toNat = true := by
  unfold placeAddress
  split
  · assumption
  · decide

end Sys2Proof.Machine
end

