-- ==== Sys2Proof/Tests/Slice0.lean ====
section
/-! SUPPORT. Tests of the model. Every expected result of a test comes from spec/, mostly from 95_test_vectors.md, whose
numbers stand in the names; the witnesses meet the hypotheses of the statements in Certificates/Slice0/Obligations.lean. -/

namespace Sys2Proof.Tests

open Sys2Proof.Machine

/-! ## Helpers -/

/-- One step with the word whose bytes are `hi` and `lo` at `pc`. -/
def runWord (hi lo : Byte) (s : State) : Result := step (s.storeBlock s.pc.toNat [hi, lo])

/-- What is seen of the next state; none where there is none. -/
def seen {α : Type} (f : State → α) : Result → Option α
  | .next s => some (f s)
  | .fault _ => none
  | .refused _ => none

/-- The error's code and info, and what is seen of the state it leaves. -/
def failed {α : Type} (f : State → α) : Result → Option (Nat × Option Nat × α)
  | .next _ => none
  | .fault e => some (e.code, e.info, f e.after)
  | .refused _ => none

/-- The reset state with two registers set. -/
def two (x : RegId) (a : Byte) (y : RegId) (b : Byte) : State := (State.reset.setV x a).setV y b

/-- The reset state with I set, and some bytes from I on. -/
def at_ (i : AddrReg) (bytes : List Byte) : State := (State.reset.setI i).storeBlock i.toNat bytes

/-- The bytes from `a` to `a + n - 1`. -/
def bytes (a n : Nat) (s : State) : List Byte := Memory.readBlock s.mem a n

/-! ## Well-formedness: what the check refuses (R65) -/

theorem test_wf_refuses_sys_cls : (Instr.sys 0x0E0).wf = false := by decide
theorem test_wf_refuses_sys_ret : (Instr.sys 0x0EE).wf = false := by decide
theorem test_wf_accepts_sys : (Instr.sys 0x0E1).wf = true := by decide

/-! ## Decoding: one word for every constructor, written out from the patterns of R64 -/

theorem test_decode_cls : decode [0x00, 0xE0] = .ok (.cls, []) := by decide
theorem test_decode_ret : decode [0x00, 0xEE] = .ok (.ret, []) := by decide
theorem test_decode_sys : decode [0x0F, 0xE0] = .ok (.sys 0xFE0, []) := by decide
theorem test_decode_jp : decode [0x1A, 0xBC] = .ok (.jp 0xABC, []) := by decide
theorem test_decode_call : decode [0x2A, 0xBC] = .ok (.call 0xABC, []) := by decide
theorem test_decode_seImm : decode [0x3A, 0xBC] = .ok (.seImm 0xA 0xBC, []) := by decide
theorem test_decode_sneImm : decode [0x4A, 0xBC] = .ok (.sneImm 0xA 0xBC, []) := by decide
theorem test_decode_seReg : decode [0x5A, 0xB0] = .ok (.seReg 0xA 0xB, []) := by decide
theorem test_decode_ldImm : decode [0x6A, 0xBC] = .ok (.ldImm 0xA 0xBC, []) := by decide
theorem test_decode_addImm : decode [0x7A, 0xBC] = .ok (.addImm 0xA 0xBC, []) := by decide
theorem test_decode_ldReg : decode [0x8A, 0xB0] = .ok (.ldReg 0xA 0xB, []) := by decide
theorem test_decode_orReg : decode [0x8A, 0xB1] = .ok (.orReg 0xA 0xB, []) := by decide
theorem test_decode_andReg : decode [0x8A, 0xB2] = .ok (.andReg 0xA 0xB, []) := by decide
theorem test_decode_xorReg : decode [0x8A, 0xB3] = .ok (.xorReg 0xA 0xB, []) := by decide
theorem test_decode_addReg : decode [0x8A, 0xB4] = .ok (.addReg 0xA 0xB, []) := by decide
theorem test_decode_subReg : decode [0x8A, 0xB5] = .ok (.subReg 0xA 0xB, []) := by decide
theorem test_decode_shrReg : decode [0x8A, 0xB6] = .ok (.shrReg 0xA 0xB, []) := by decide
theorem test_decode_subnReg : decode [0x8A, 0xB7] = .ok (.subnReg 0xA 0xB, []) := by decide
theorem test_decode_shlReg : decode [0x8A, 0xBE] = .ok (.shlReg 0xA 0xB, []) := by decide
theorem test_decode_sneReg : decode [0x9A, 0xB0] = .ok (.sneReg 0xA 0xB, []) := by decide
theorem test_decode_ldI : decode [0xAA, 0xBC] = .ok (.ldI 0xABC, []) := by decide
theorem test_decode_jpV0 : decode [0xBA, 0xBC] = .ok (.jpV0 0xABC, []) := by decide
theorem test_decode_rnd : decode [0xCA, 0xBC] = .ok (.rnd 0xA 0xBC, []) := by decide
theorem test_decode_drw : decode [0xDA, 0xBC] = .ok (.drw 0xA 0xB 0xC, []) := by decide
theorem test_decode_skp : decode [0xEA, 0x9E] = .ok (.skp 0xA, []) := by decide
theorem test_decode_sknp : decode [0xEA, 0xA1] = .ok (.sknp 0xA, []) := by decide
theorem test_decode_ldVxDT : decode [0xFA, 0x07] = .ok (.ldVxDT 0xA, []) := by decide
theorem test_decode_ldVxK : decode [0xFA, 0x0A] = .ok (.ldVxK 0xA, []) := by decide
theorem test_decode_ldDTVx : decode [0xFA, 0x15] = .ok (.ldDTVx 0xA, []) := by decide
theorem test_decode_ldSTVx : decode [0xFA, 0x18] = .ok (.ldSTVx 0xA, []) := by decide
theorem test_decode_addI : decode [0xFA, 0x1E] = .ok (.addI 0xA, []) := by decide
theorem test_decode_ldF : decode [0xFA, 0x29] = .ok (.ldF 0xA, []) := by decide
theorem test_decode_ldB : decode [0xFA, 0x33] = .ok (.ldB 0xA, []) := by decide
theorem test_decode_dumpRegs : decode [0xFA, 0x55] = .ok (.dumpRegs 0xA, []) := by decide
theorem test_decode_loadRegs : decode [0xFA, 0x65] = .ok (.loadRegs 0xA, []) := by decide

/-- A word no row selects is rejected with its value, and the bytes behind an instruction are left (R60, R66). -/
theorem test_decode_reserved : decode [0xFA, 0x66, 0x12] = .error (.invalidInstruction 0xFA66) := by decide
theorem test_decode_rest : decode [0x12, 0x34, 0x56] = .ok (.jp 0x234, [0x56]) := by decide
theorem test_decode_one_byte : decode [0x12] = .error .truncated := by decide

/-- The table has 35 rows (R64). -/
theorem test_table_length : opcodeTable.length = 35 := by decide

/-- No word is selected by two rows, but for the words of CLS and RET, which the row of SYS selects too (R63, R65). -/
theorem test_table_no_overlap : (opcodeRows1.drop 2 ++ opcodeRows2 ++ opcodeRows3).Pairwise
    fun r q => (r.pattern ^^^ q.pattern) &&& (r.mask &&& q.mask) ≠ 0 := by decide

/-! ## Register loads, arithmetic, logic, shifts and random (95_test_vectors.md T1 to T31) -/

theorem test_T1_ldImm : seen (fun t => (t.getV 3, t.pc)) (runWord 0x63 0xFF State.reset) = some (0xFF, 0x202) := by decide
theorem test_T3_addImm : seen (fun t => (t.getV 3, t.getV 0xF)) (runWord 0x73 0x0A (two 3 0xFA 0xF 0)) = some (0x04, 1) := by
  decide
theorem test_T7_addImm_VF : seen (fun t => t.getV 0xF) (runWord 0x7F 0x03 (two 0xF 0xFE 0 0)) = some 1 := by decide
theorem test_T8_ldReg : seen (fun t => (t.getV 0, t.getV 1)) (runWord 0x80 0x10 (two 0 0 1 7)) = some (7, 7) := by decide
theorem test_T9_orReg : seen (fun t => (t.getV 0, t.getV 0xF)) (runWord 0x80 0x11 ((two 0 0xF0 1 0x0F).setV 0xF 0x55)) =
    some (0xFF, 0x55) := by decide
theorem test_T10_andReg : seen (fun t => t.getV 0) (runWord 0x80 0x12 (two 0 0xF0 1 0x3C)) = some 0x30 := by decide
theorem test_T11_xorReg : seen (fun t => t.getV 0) (runWord 0x80 0x13 (two 0 0xFF 1 0x0F)) = some 0xF0 := by decide
theorem test_T13_addReg : seen (fun t => (t.getV 0, t.getV 0xF)) (runWord 0x80 0x14 (two 0 0xFA 1 0x0A)) = some (4, 1) := by
  decide
theorem test_T16_addReg_VF : seen (fun t => t.getV 0xF) (runWord 0x8F 0x14 (two 0xF 0x90 1 0x90)) = some 1 := by decide
theorem test_T17_subReg : seen (fun t => (t.getV 0, t.getV 0xF)) (runWord 0x80 0x15 (two 0 5 1 10)) = some (251, 0) := by
  decide
theorem test_T20_subReg_VF_source : seen (fun t => (t.getV 0, t.getV 0xF)) (runWord 0x80 0xF5 (two 0 3 0xF 1)) =
    some (2, 1) := by decide
theorem test_T21_shrReg : seen (fun t => (t.getV 0, t.getV 0xF)) (runWord 0x80 0x16 (two 0 0 1 5)) = some (2, 1) := by decide
theorem test_T23_shrReg_VF : seen (fun t => t.getV 0xF) (runWord 0x8F 0x16 (two 0 0 1 5)) = some 2 := by decide
theorem test_T24_subnReg_borrow : seen (fun t => (t.getV 0, t.getV 0xF)) (runWord 0x80 0x17 (two 0 10 1 5)) =
    some (0xFB, 0) := by decide
theorem test_T25_subnReg : seen (fun t => (t.getV 0, t.getV 0xF)) (runWord 0x80 0x17 (two 0 5 1 10)) = some (5, 1) := by
  decide
theorem test_T26_shlReg : seen (fun t => (t.getV 0, t.getV 0xF)) (runWord 0x80 0x1E (two 0 0 1 0x81)) = some (2, 1) := by
  decide
theorem test_T28_shlReg_VF : seen (fun t => t.getV 0xF) (runWord 0x8F 0x1E (two 0 0 1 0x80)) = some 0 := by decide

/-- T30 for every draw: under mask 0 the result is 0; one byte is drawn. -/
theorem test_T30_rnd_mask_zero : seen (fun t => (t.getV 5, t.draws)) (exec (.rnd 5 0) State.reset) = some (0, 1) := by
  simp [exec, execRnd, seen, State.reset]

/-! ## Control flow (T40 to T60) -/

theorem test_T40_sys : seen (fun t => (t.pc, t.V)) (runWord 0x01 0x23 State.reset) = some (0x202, State.reset.V) := by decide
theorem test_T43_jp_self : seen (fun t => t.pc) (runWord 0x12 0x08 (State.reset.setPc 0x208)) = some 0x208 := by decide
theorem test_T44_call : seen (fun t => (t.stack, t.pc)) (runWord 0x23 0x00 State.reset) = some ([0x202], 0x300) := by decide
theorem test_T45_call_full : failed (fun t => (t.pc, t.stack.length))
    (runWord 0x23 0x00 (State.reset.setStack (List.replicate 16 0x206))) = some (8, none, 0x200, 16) := by decide
theorem test_T46_ret : seen (fun t => (t.pc, t.stack)) (runWord 0x00 0xEE ((State.reset.setPc 0x300).push 0x206)) =
    some (0x206, []) := by decide
theorem test_T47_ret_empty : failed (fun t => t.pc) (runWord 0x00 0xEE (State.reset.setPc 0x300)) = some (1, none, 0x300) := by
  decide
theorem test_T48_seImm : seen (fun t => t.pc) (runWord 0x32 0x10 (two 2 0x10 0 0)) = some 0x204 := by decide
theorem test_T49_seImm_untaken : seen (fun t => t.pc) (runWord 0x32 0x10 (two 2 0x11 0 0)) = some 0x202 := by decide
theorem test_T50_sneImm : seen (fun t => t.pc) (runWord 0x42 0x10 (two 2 0x11 0 0)) = some 0x204 := by decide
theorem test_T51_sneImm_untaken : seen (fun t => t.pc) (runWord 0x42 0x10 (two 2 0x10 0 0)) = some 0x202 := by decide
theorem test_T52_seReg : seen (fun t => t.pc) (runWord 0x50 0x10 (two 0 3 1 3)) = some 0x204 := by decide
theorem test_T54_undecodable : failed (fun t => t.pc) (runWord 0x50 0x11 State.reset) = some (3, some 0x5011, 0x200) := by
  decide
theorem test_T55_sneReg : seen (fun t => t.pc) (runWord 0x90 0x10 (two 0 3 1 4)) = some 0x204 := by decide
theorem test_T56_sneReg_same : seen (fun t => t.pc) (runWord 0x97 0x70 (two 7 9 0 0)) = some 0x202 := by decide
theorem test_T58_jpV0_unmasked : seen (fun t => t.pc) (runWord 0xBF 0xFF (two 0 0xFF 1 0)) = some 0x10FE := by decide
theorem test_T59_jpV0_odd : seen (fun t => t.pc) (runWord 0xB2 0x00 (two 0 1 1 0)) = some 0x201 := by decide

/-! ## Framebuffer, keyboard and timers (T70 to T90) -/

theorem test_T70_cls : seen (fun t => (t.pixel 5 6, t.dirty))
    (runWord 0x00 0xE0 ((State.reset.setPixel 5 6 .on).setDirty false)) = some (.off, true) := by decide
theorem test_T74_drw_wraps : seen (fun t => (t.pixel 63 31, t.pixel 0 31, t.pixel 3 31, t.pixel 4 31, t.getV 0xF))
    (runWord 0xD0 0x11 (((at_ 0x300 [0xFF]).setV 0 60).setV 1 31)) = some (.on, .on, .on, .off, 0) := by decide
theorem test_T75_drw_collides : seen (fun t => (t.pixel 0 0, t.pixel 1 0, t.getV 0xF))
    (runWord 0xD0 0x11 ((at_ 0x300 [0xC0]).setPixel 0 0 .on)) = some (.off, .on, 1) := by decide
theorem test_T80_skp : seen (fun t => t.pc) (runWord 0xE5 0x9E ((two 5 0xA 0 0).setKey 0xA .pressed)) = some 0x204 := by decide
theorem test_T83_skp_invalid : failed (fun t => t.pc) (runWord 0xE5 0x9E (two 5 0x10 0 0)) = some (5, some 0x10, 0x200) := by
  decide
theorem test_T82_sknp : seen (fun t => t.pc) (runWord 0xE5 0xA1 (two 5 0xA 0 0)) = some 0x204 := by decide
theorem test_T84_sknp_invalid : failed (fun t => t.pc) (runWord 0xE5 0xA1 (two 5 0xFF 0 0)) = some (5, some 0xFF, 0x200) := by
  decide
theorem test_T85_ldVxDT : seen (fun t => t.getV 2) (runWord 0xF2 0x07 (State.reset.setDT 0x3C)) = some 0x3C := by decide
theorem test_T86_ldVxK : seen (fun t => (t.blocked, t.pc, t.getV 3)) (runWord 0xF3 0x0A (two 3 0x77 0 0)) =
    some (.waitingKey 3, 0x202, 0x77) := by decide
theorem test_T87_ldDTVx : seen (fun t => (t.DT, t.ST)) (runWord 0xF2 0x15 (two 2 0x3C 0 0)) = some (0x3C, 0) := by decide
theorem test_T88_ldSTVx : seen (fun t => (t.DT, t.ST)) (runWord 0xF2 0x18 (two 2 5 0 0)) = some (0, 5) := by decide

/-! ## Address register, BCD and block transfer (T100 to T117) -/

theorem test_T100_ldI : seen (fun t => t.I) (runWord 0xA2 0xF0 State.reset) = some 0x2F0 := by decide
theorem test_T101_addI : seen (fun t => (t.I, t.getV 0xF)) (runWord 0xF0 0x1E ((two 0 2 0xF 9).setI 0xFFF)) =
    some (0x1001, 9) := by decide
theorem test_T102_addI_wraps : seen (fun t => t.I) (runWord 0xF0 0x1E ((two 0 2 1 0).setI 0xFFFFFFFFFFFFFFFF)) =
    some 1 := by decide
theorem test_T103_ldF : seen (fun t => t.I) (runWord 0xF4 0x29 (two 4 0xA 0 0)) = some 0x032 := by decide
theorem test_T104_ldF_unmasked : seen (fun t => t.I) (runWord 0xF4 0x29 (two 4 0xFF 0 0)) = some 0x4FB := by decide
theorem test_T105_ldB : seen (bytes 0x300 4) (runWord 0xF0 0x33 ((at_ 0x300 []).setV 0 234)) = some [2, 3, 4, 0] := by decide
theorem test_T108_ldB_pastEnd : failed (bytes 0xFFE 2) (runWord 0xF0 0x33 ((at_ 0xFFE [7, 7]).setV 0 255)) =
    some (2, some 0x1000, [7, 7]) := by decide
theorem test_T110_dumpRegs : seen (fun t => (bytes 0x300 4 t, t.I)) (runWord 0xF2 0x55
    (((at_ 0x300 [0, 0, 0, 9]).setV 0 1).setV 2 3)) = some ([1, 0, 3, 9], 0x300) := by decide
theorem test_T112_dumpRegs_partial : failed (bytes 0xFFE 2) (runWord 0xF3 0x55 (((at_ 0xFFE []).setV 0 7).setV 1 8)) =
    some (2, some 0x1000, [7, 8]) := by decide
theorem test_T114_loadRegs : seen (fun t => (t.getV 0, t.getV 1, t.getV 2, t.getV 3, t.I))
    (runWord 0xF2 0x65 ((at_ 0x300 [9, 8, 7, 6]).setV 3 5)) = some (9, 8, 7, 5, 0x300) := by decide
theorem test_T116_loadRegs_partial : failed (fun t => (t.getV 0, t.getV 1, t.getV 2))
    (runWord 0xF3 0x65 ((at_ 0xFFE [0x11, 0x22]).setV 2 0x55)) = some (2, some 0x1000, 0x11, 0x22, 0x55) := by decide

/-! ## Sequencer, program load and host transactions (S1 to S19) -/

theorem test_S1_load_protected : failed (fun t => (t.pc, bytes 0x100 1 t, bytes 0 5 t))
    (transact (.loadProgramToAddress [1, 2] 0x100) State.reset) =
    some (6, some 0x100, 0x200, [0], [0xF0, 0x90, 0x90, 0x90, 0xF0]) := by decide +kernel
theorem test_S6_S16_load_keeps_keys : seen (fun t => (t.pc, bytes 0x300 2 t, t.getV 0, t.DT, t.getKey 2))
    (transact (.loadProgramToAddress [0x12, 0x34] 0x300) (((two 0 5 1 0).setDT 3).setKey 2 .pressed)) =
    some (0x300, [0x12, 0x34], 0, 0, .pressed) := by decide +kernel
theorem test_S8_fetch_last_byte : failed (fun t => t.pc) (step (State.reset.setPc 0xFFF)) = some (2, some 0xFFF, 0xFFF) := by
  decide
theorem test_S9_fetch_last_word : seen (fun t => t.pc) (step (State.reset.setPc 0xFFE)) = some 0x1000 := by decide
theorem test_S10_fetch_odd : seen (fun t => (t.getV 1, t.pc)) (runWord 0x61 0x23 (State.reset.setPc 0x201)) =
    some (0x23, 0x203) := by decide
theorem test_S12_frozen : seen (fun t => t.DT)
    (transact .updateTimers ((State.reset.setDT 5).setBlocked (.waitingKey 2))) = some 5 := by decide
theorem test_S13_key_up : seen (fun t => (t.blocked, t.getV 0xF, t.getKey 9))
    (transact (.keyUp 9) (State.reset.setBlocked (.waitingKey 0xF))) = some (.notBlocked, 9, .released) := by decide

/-! ## Witnesses: states and operands that meet the hypotheses of the obligations, at the edges of their ranges -/

/-- Words at 0x200 of the reset state. -/
def loaded (bs : List Byte) : State := State.reset.storeBlock 0x200 bs

theorem witness_EncodeThenDecode : (Instr.sys 0x0E1).wf = true := by decide
theorem witness_DecodeThenEncode : decodeWord 0x8AB6 = some (.shrReg 0xA 0xB) := by decide

/-- With calls of the host still to come, at the last address that can be fetched at. -/
theorem witness_StepRunsTheDecodedInstruction : ∃ (s : State) (i : Instr), s.hostCalls = [.updateTimers] ∧ s.blocked = .notBlocked ∧
    0x200 ≤ s.pc.toNat ∧ s.pc.toNat + 1 < 4096 ∧
    decode [s.byteAt s.pc.toNat, s.byteAt (s.pc.toNat + 1)] = .ok (i, []) ∧ i.wf = true :=
  ⟨((powerOn [.updateTimers]).setPc 0xFFE).storeBlock 0xFFE [0x6A, 0x2B], .ldImm 0xA 0x2B, by decide⟩
theorem witness_StepRunsTheDecodedInstruction_calls : State.reset.hostCalls = [] ∧
    (powerOn [.cycle, .updateTimers]).hostCalls = .cycle :: [.updateTimers] := by decide

theorem witness_FetchRange_below : ∃ s : State, s.blocked = .notBlocked ∧ s.pc.toNat = 0x1FF ∧
    (0x1FF < 0x200 ∨ 4096 ≤ 0x1FF + 1) := ⟨State.reset.setPc 0x1FF, by decide⟩
theorem witness_FetchRange_above : ∃ s : State, s.blocked = .notBlocked ∧ s.pc.toNat = 0xFFF ∧
    (0xFFF < 0x200 ∨ 4096 ≤ 0xFFF + 1) := ⟨State.reset.setPc 0xFFF, by decide⟩
theorem witness_FetchRange_edges : (fetch 0x1FF State.reset, fetch 0x200 (loaded [0x12, 0x34]),
    fetch 0xFFE (at_ 0xFFE [0x56, 0x78]), fetch 0xFFF State.reset) = (none, some 0x1234, some 0x5678, none) := by decide

theorem witness_UndecodableWordRaises : ∃ (s : State) (w : Word), s.blocked = .notBlocked ∧
    fetch s.pc.toNat s = some w ∧ decodeWord w = none := ⟨loaded [0x50, 0x11], 0x5011, by decide⟩

theorem witness_BlockedCycleChangesNothing : ∃ (s : State) (x : RegId), s.blocked = .waitingKey x ∧ s.hostCalls = [] :=
  ⟨State.reset.setBlocked (.waitingKey 2), 2, by decide⟩

/-- A taken skip at the last address: the sum 0x1002 is the largest (R75, T60 at 0xFFE). -/
theorem witness_CycleAdvances_skip : ∃ (s t : State) (w : Word) (i : Instr), s.blocked = .notBlocked ∧
    s.jump = false ∧ fetch s.pc.toNat s = some w ∧ decodeWord w = some i ∧ transact .cycle s = .next t ∧
    requestsJump i = false ∧ isSkip i = true ∧ t.pc = 0x1002 :=
  ⟨(State.reset.setPc 0xFFE).storeBlock 0xFFE [0x30, 0x00], _, 0x3000, .seImm 0 0, rfl, rfl, by decide, by decide, rfl,
    by decide⟩
/-- And an instruction that is no skip; it is PcKeepsItsParity's witness as well, at an odd `pc`. -/
theorem witness_CycleAdvances_PcKeepsItsParity_odd : ∃ (s t : State) (w : Word) (i : Instr), s.blocked = .notBlocked ∧
    s.jump = false ∧ fetch s.pc.toNat s = some w ∧ decodeWord w = some i ∧ requestsJump i = false ∧
    transact .cycle s = .next t ∧ t.pc = 0x203 :=
  ⟨(State.reset.setPc 0x201).storeBlock 0x201 [0x61, 0x23], _, 0x6123, .ldImm 1 0x23, rfl, rfl, by decide, by decide,
    by decide, rfl, by decide⟩

/-- A failed Fx55 with a partial write; also RetryFailsTheSameWay's witness, since its own word at 0x200 stays (S19). -/
theorem witness_FailedCycle_Retry_dump : ∃ (s : State) (f : Fault), s.blocked = .notBlocked ∧ transact .cycle s = .fault f ∧
    fetch s.pc.toNat s = some 0xF355 ∧ decodeWord 0xF355 = some (.dumpRegs 3) ∧
    fetch s.pc.toNat f.after = fetch s.pc.toNat s ∧ f.after.byteAt 0xFFF = 8 :=
  ⟨((loaded [0xF3, 0x55]).setI 0xFFE).setV 1 8, _, rfl, rfl, by decide⟩
/-- A failed Fx55 whose first address is the last protected one (T113). -/
theorem witness_FailedCycle_dump_protected : ∃ (s : State) (f : Fault), s.blocked = .notBlocked ∧
    transact .cycle s = .fault f ∧ fetch s.pc.toNat s = some 0xF155 ∧ decodeWord 0xF155 = some (.dumpRegs 1) ∧
    s.I.toNat < 0x200 := ⟨((loaded [0xF1, 0x55]).setI 0x1FF).setV 0 5, _, rfl, rfl, by decide⟩
/-- V2 is the first register whose byte does not exist (T116). -/
theorem witness_FailedCycle_load : ∃ (s : State) (f : Fault), s.blocked = .notBlocked ∧ transact .cycle s = .fault f ∧
    fetch s.pc.toNat s = some 0xF365 ∧ decodeWord 0xF365 = some (.loadRegs 3) ∧ 4096 ≤ s.I.toNat + (2 : RegId).val :=
  ⟨(loaded [0xF3, 0x65]).setI 0xFFE, _, rfl, rfl, by decide⟩
theorem witness_FailedCycle_other : ∃ (s : State) (f : Fault), s.blocked = .notBlocked ∧ transact .cycle s = .fault f ∧
    fetch s.pc.toNat s = some 0x00EE ∧ decodeWord 0x00EE = some .ret :=
  ⟨loaded [0x00, 0xEE], _, rfl, rfl, by decide⟩

/-! Timers and keys -/

theorem witness_UpdateTimers : (∃ (s : State) (x : RegId), s.blocked = .waitingKey x) ∧
    (∃ s : State, s.blocked = .notBlocked ∧ s.DT = 1 ∧ s.ST = 0) :=
  ⟨⟨State.reset.setBlocked (.waitingKey 0xF), 0xF, rfl⟩, ⟨State.reset.setDT 1, rfl, rfl, rfl⟩⟩
theorem witness_KeyEvents : (∃ s : State, s.blocked = .notBlocked) ∧ ∃ (s : State) (x : RegId) (j k : KeyId),
    s.blocked = .waitingKey x ∧ j ≠ k := ⟨⟨State.reset, rfl⟩, State.reset.setBlocked (.waitingKey 0xF), 0xF, 3, 9, rfl, by decide⟩
theorem witness_OnlyReleaseOrLoadEndsAWait : ∃ (c : Transaction) (s t : State) (x : RegId), s.blocked = .waitingKey x ∧
    Leaves (transact c s) t := ⟨.keyDown 3, State.reset.setBlocked (.waitingKey 2), _, 2, rfl, .inl rfl⟩

/-! Reset and load -/

theorem witness_ZeroedMemory : seen (fun t => t.pc) (core.run 2 State.reset) = some 0x204 := by decide
/-- The load's three ranges meet at 0x1FF and 0x200, and at lengths 3584 and 3585; an empty program fits at 0x1000 (S1 to S5). -/
theorem witness_ProgramLoad_ranges : (0x1FF < 0x200) ∧
    (∃ bs : List Byte, 0x200 ≤ 0x200 ∧ 4096 < 0x200 + bs.length) ∧ (∃ bs : List Byte, 0x200 ≤ 0x200 ∧ 0x200 + bs.length = 4096) ∧
    (∃ bs : List Byte, 0x200 ≤ 0x1000 ∧ 0x1000 + bs.length ≤ 4096) :=
  ⟨by decide, ⟨List.replicate 3585 1, by decide, by rw [List.length_replicate]; omega⟩,
    ⟨List.replicate 3584 1, by decide, by rw [List.length_replicate]⟩, ⟨[], by decide⟩⟩
/-! Errors -/

theorem witness_ErrorKinds_ret : ∃ f, exec .ret State.reset = .fault f := ⟨_, rfl⟩
theorem witness_ErrorKinds_call : ∃ f, exec (.call 0) (State.reset.setStack (List.replicate 16 0)) = .fault f := ⟨_, rfl⟩
theorem witness_ErrorKinds_key : ∃ f, exec (.skp 5) (two 5 0x10 0 0) = .fault f := ⟨_, rfl⟩
theorem witness_ErrorKinds_memory : ∃ f, exec (.drw 0 1 5) (State.reset.setI 0xFFC) = .fault f := ⟨_, rfl⟩
theorem witness_ErrorKindsOfTransactions : ∃ f, transact .cycle (State.reset.setPc 0x1FF) = .fault f := ⟨_, rfl⟩

/-! Arithmetic and control flow -/

/-- Both sides of "x is not F", of the carry and of the borrow (T3, T4, T7, T17, T18). -/
theorem witness_Additions_Subtractions_Shifts : (3 : RegId) ≠ 0xF ∧ 255 < (two 3 0xFA 0 0 |>.getV 3).toNat + 0xA ∧
    ¬ 255 < (two 3 0xFA 0 0 |>.getV 3).toNat + 5 := by decide
theorem witness_SysHasNoEffect : ∃ (s : State) (w : Word) (nnn : Addr12), s.blocked = .notBlocked ∧
    s.jump = false ∧ fetch s.pc.toNat s = some w ∧ decodeWord w = some (.sys nnn) ∧ nnn ≠ 0x0E0 ∧ nnn ≠ 0x0EE :=
  ⟨State.reset, 0, 0, by decide⟩
theorem witness_ReturnPops : State.reset.stack = [] ∧ (State.reset.push 0x206).stack = 0x206 :: [] := ⟨rfl, rfl⟩
theorem witness_CallPushes : (State.reset.setStack (List.replicate 16 0x206)).stack.length = 16 ∧
    (State.reset.setStack (List.replicate 15 0x206)).stack.length < 16 := by decide
theorem witness_ReturnResumesAfterTheCall : ∃ (s t u : State) (w : Word) (nnn : Addr12), s.blocked = .notBlocked ∧
    fetch s.pc.toNat s = some w ∧ decodeWord w = some (.call nnn) ∧ transact .cycle s = .next t ∧
    u.blocked = .notBlocked ∧ fetch u.pc.toNat u = some 0x00EE ∧ u.stack = t.stack :=
  ⟨loaded [0x23, 0x00], _, ((loaded [0x00, 0xEE]).push 0x202), 0x2300, 0x300, rfl, by decide, by decide, rfl, rfl,
    by decide, by decide⟩

/-! Screen, keys -/

theorem witness_DrawSprite_edges : 4096 < (State.reset.setI 0xFFC).I.toNat + (5 : Nibble).toNat ∧
    (State.reset.setI 0xFFB).I.toNat + (5 : Nibble).toNat ≤ 4096 := by decide
/-- The state is the screen's clear one, so both clauses' hypotheses are met; the sprite has On pixels. -/
theorem witness_DrawingTwiceErases : ∃ s t u : State, (0 : RegId) ≠ 0xF ∧ (1 : RegId) ≠ 0xF ∧
    exec (.drw 0 1 1) s = .next t ∧ exec (.drw 0 1 1) t = .next u ∧ (∀ p q, s.pixel p q = .off) :=
  ⟨at_ 0x300 [0xC0], _, _, by decide, by decide, rfl, rfl, State.pixel_clear State.reset⟩
theorem witness_DrawingWrapsAround : (∃ t, exec (.drw 0 1 1) (at_ 0x300 [0xFF]) = .next t) ∧ (0 : RegId) ≠ 1 :=
  ⟨⟨_, rfl⟩, by decide⟩
theorem witness_SkipsOnKeys : 0xF < ((two 5 0x10 0 0).getV 5).toNat ∧ ((two 5 0xF 0 0).getV 5).toNat = (0xF : KeyId).val := by
  decide
theorem witness_WaitForKey : ∃ s : State, s.blocked = .notBlocked ∧ s.jump = false ∧
    fetch s.pc.toNat s = some 0xF50A ∧ decodeWord 0xF50A = some (.ldVxK 5) := ⟨loaded [0xF5, 0x0A], by decide⟩

/-! Stores: the ranges meet at I = 0x1FF and 0x200, and at the last address that fits -/

theorem witness_BcdStore : ∃ s1 s2 s3 s4 : State, Memory.wf s1.mem ∧ 4096 ≤ s1.I.toNat + 2 ∧
    Memory.wf s2.mem ∧ s2.I.toNat + 2 < 4096 ∧ s2.I.toNat < 0x200 ∧ Memory.wf s3.mem ∧ s3.I.toNat + 2 < 4096 ∧
    0x200 ≤ s3.I.toNat ∧ Memory.wf s4.mem ∧ s4.I.toNat + 2 < 4096 ∧ 0x200 ≤ s4.I.toNat :=
  ⟨State.reset.setI 0xFFE, State.reset.setI 0x1FF, State.reset.setI 0x200, at_ 0xFFD [7], by decide⟩
theorem witness_BlockDump : ∃ s1 s2 s3 s4 : State, Memory.wf s1.mem ∧ s1.I.toNat < 0x200 ∧
    Memory.wf s2.mem ∧ 0x200 ≤ s2.I.toNat ∧ 4096 ≤ s2.I.toNat + (3 : RegId).val ∧
    Memory.wf s3.mem ∧ 0x200 ≤ s3.I.toNat ∧ s3.I.toNat + (3 : RegId).val < 4096 ∧
    Memory.wf s4.mem ∧ 0x200 ≤ s4.I.toNat ∧ 4096 ≤ s4.I.toNat + (0 : RegId).val :=
  ⟨State.reset.setI 0x1FF, State.reset.setI 0xFFD, at_ 0xFFC [7], State.reset.setI 0x1000, by decide⟩
theorem witness_BlockLoad : 4096 ≤ (State.reset.setI 0xFFD).I.toNat + (3 : RegId).val ∧
    (State.reset.setI 0xFFC).I.toNat + (3 : RegId).val < 4096 := by decide
/-- The single register of x = 0, and all sixteen. -/
theorem witness_DumpThenLoadRestores : ∃ s t0 tF u0 uF : State, Memory.wf s.mem ∧ exec (.dumpRegs 0) s = .next t0 ∧
    exec (.dumpRegs 0xF) s = .next tF ∧ (∀ a, u0.byteAt a = t0.byteAt a) ∧ u0.I = s.I ∧ (∀ a, uF.byteAt a = tF.byteAt a) ∧
    uF.I = s.I :=
  ⟨two 0 7 0xF 9 |>.setI 0x200, _, _, _, _, by decide, rfl, rfl, fun _ => rfl, rfl, fun _ => rfl, rfl⟩
/-- A dump that fits at the first address of the program region, one that fails past the last one, and a BCD store. -/
theorem witness_StoresAreFetched : ∃ s1 t1 s2 t2 s3 t3 : State, Memory.wf s1.mem ∧ 0x200 ≤ s1.I.toNat ∧
    Leaves (exec (.dumpRegs 1) s1) t1 ∧ Memory.wf s2.mem ∧ 0x200 ≤ s2.I.toNat ∧ Leaves (exec (.dumpRegs 3) s2) t2 ∧
    Memory.wf s3.mem ∧ exec (.ldB 0) s3 = .next t3 :=
  ⟨two 0 0x12 1 0x0A |>.setI 0x200, _, State.reset.setI 0xFFE, _, State.reset.setI 0xFFD, _, by decide, by decide, .inl rfl,
    by decide, by decide, .inr ⟨_, rfl, rfl⟩, by decide, rfl⟩
theorem witness_StoresAreFetched_load : ∃ t, transact (.loadProgramToAddress [0x12, 0x34] 0x200) State.reset = .next t :=
  ⟨_, rfl⟩

/-! Whole-machine rules -/

theorem witness_InstructionsWriteOnlyTheirOwn : (∃ t, Leaves (exec (.addReg 0 1) (two 0 5 1 6)) t) ∧
    (∃ t, Leaves (exec (.loadRegs 3) (State.reset.setI 0xFFE)) t) ∧ (∃ t, Leaves (exec (.ldB 0) (State.reset.setI 0xFFD)) t) ∧
    (∃ t, Leaves (exec (.dumpRegs 3) (State.reset.setI 0xFFE)) t) :=
  ⟨⟨_, .inl rfl⟩, ⟨_, .inr ⟨_, rfl, rfl⟩⟩, ⟨_, .inl rfl⟩, _, .inr ⟨_, rfl, rfl⟩⟩
theorem witness_Protected : ∃ s t : State, Leaves (transact .cycle s) t ∧ (0x1FF : Nat) < 0x200 :=
  ⟨(loaded [0xF0, 0x55]).setI 0x1FF, _, .inr ⟨_, rfl, rfl⟩, by decide⟩
theorem witness_Inv : Inv State.reset where
  memWf := by decide
  stackBound := by decide
  returnAddresses := fun _ h => absurd h List.not_mem_nil
  pcBound := by decide
  jumpClear := rfl
  protectedRegion := Or.inl fun _ _ => rfl
theorem witness_EveryStepKeepsTheInvariant : ∃ s t, Inv s ∧ Leaves (step s) t := ⟨State.reset, _, witness_Inv, .inl rfl⟩
theorem witness_TransactionsLeaveTheModelsOwnFields : (∃ t, Leaves (transact .cycle (loaded [0xC5, 0x0F])) t ∧ t.draws = 1) ∧
    (∃ t, Leaves (transact (.keyUp 3) State.reset) t) ∧
    (∃ t, Leaves (transact (.loadProgramToAddress [] 0x1FF) State.reset) t) :=
  ⟨⟨_, .inl rfl, rfl⟩, ⟨_, .inl rfl⟩, _, .inr ⟨_, rfl, rfl⟩⟩
/-- A blocked state whose `pc` cannot be fetched at. -/
theorem witness_PlacedWordRunsNext : ∃ (s : State) (i : Instr), Memory.wf s.mem ∧ decodeTableWord 16 0x00E0 = some i ∧
    s.blocked = .waitingKey 1 ∧ s.pc = 0x1000 := ⟨(State.reset.setPc 0x1000).setBlocked (.waitingKey 1), .cls, by decide⟩

end Sys2Proof.Tests
end

/-! # The state family (10_state.md): frames of Execute, and the invariant of every transaction -/

section
namespace Sys2Proof.Machine

/-! ## Frames by the stored data

`Part.same` compares a part through the model's reads; two memories can read alike and yet be different lists. The frame of
an instruction is therefore shown once for the stored data, and the frame by reads follows from it. -/

/-- The part holds the same data in both states. -/
def Part.kept (p : Part) (s t : State) : Prop :=
  match p with
  | .regs => t.V = s.V
  | .index => t.I = s.I
  | .pc => t.pc = s.pc
  | .stack => t.stack = s.stack
  | .delay => t.DT = s.DT
  | .sound => t.ST = s.ST
  | .memory => t.mem = s.mem
  | .pixels => t.pix = s.pix
  | .dirty => t.dirty = s.dirty
  | .keys => t.key = s.key
  | .blocked => t.blocked = s.blocked
  | .jump => t.jump = s.jump
  | .draws => t.draws = s.draws
  | .hostCalls => t.hostCalls = s.hostCalls

/-- Every part but the listed ones holds the same data. -/
def KeptBut (parts : List Part) (s t : State) : Prop := ∀ p, p ∉ parts → p.kept s t

theorem Part.kept.same {p : Part} {s t : State} (h : p.kept s t) : p.same s t := by
  cases p with
  | regs => exact fun r => congrArg (Vector.get · r) h
  | memory => exact fun a => congrArg (Memory.read · a) h
  | pixels => exact fun u v => congrArg (fun m : Screen => (m.get u).get v) h
  | keys => exact fun k => congrArg (Vector.get · k) h
  | _ => exact h

theorem KeptBut.unchanged {ps : List Part} {s t : State} (h : KeptBut ps s t) : UnchangedBut ps s t :=
  fun p hp => (h p hp).same

/-- The frame field by field, for `simp` to settle with the laws of the named updates. -/
theorem keptBut_iff (ps : List Part) (s t : State) : KeptBut ps s t ↔
    (.regs ∉ ps → t.V = s.V) ∧ (.index ∉ ps → t.I = s.I) ∧ (.pc ∉ ps → t.pc = s.pc) ∧
    (.stack ∉ ps → t.stack = s.stack) ∧ (.delay ∉ ps → t.DT = s.DT) ∧ (.sound ∉ ps → t.ST = s.ST) ∧
    (.memory ∉ ps → t.mem = s.mem) ∧ (.pixels ∉ ps → t.pix = s.pix) ∧ (.dirty ∉ ps → t.dirty = s.dirty) ∧
    (.keys ∉ ps → t.key = s.key) ∧ (.blocked ∉ ps → t.blocked = s.blocked) ∧ (.jump ∉ ps → t.jump = s.jump) ∧
    (.draws ∉ ps → t.draws = s.draws) ∧ (.hostCalls ∉ ps → t.hostCalls = s.hostCalls) := by
  refine ⟨fun h => ⟨h _, h _, h _, h _, h _, h _, h _, h _, h _, h _, h _, h _, h _, h _⟩, ?_⟩
  rintro ⟨hV, hI, hpc, hstack, hDT, hST, hmem, hpix, hdirty, hkey, hblocked, hjump, hdraws, hcalls⟩ p
  cases p <;> assumption

theorem SameButV.kept {s t : State} (h : SameButV s t) : KeptBut [.regs] s t := by
  rw [SameButV] at h
  rw [h]
  simp [keptBut_iff]

/-! ## What the instructions with several outcomes leave, on Ok and on Err -/

/-- A skip leaves the state as it was, or advanced (R75, R104). -/
theorem skipIf_leaves {c : Bool} {s t : State} (h : Leaves (skipIf c s) t) : t = s ∨ t = s.advancePc := by
  have ht : t = if c then s.advancePc else s := leaves_next h
  cases c with
  | false => exact .inl ht
  | true => exact .inr ht

/-- So does a skip on a key, also where the register holds no key (R114 to R116). -/
theorem skipOnKey_leaves {x : RegId} {k : KeyState} {s t : State} (h : Leaves (skipOnKey x k s) t) :
    t = s ∨ t = s.advancePc := by
  unfold skipOnKey at h
  split at h
  · exact .inl (leaves_fault h)
  · exact skipIf_leaves h

/-- RET fails on an empty stack and otherwise pops (R101). -/
theorem execRet_leaves {s t : State} (h : Leaves (execRet s) t) :
    (s.stack = [] ∧ t = s) ∨ ∃ a rest, s.stack = a :: rest ∧ t = (s.setStack rest).jumpTo a := by
  unfold execRet at h
  split at h
  · exact .inl ⟨‹_›, leaves_fault h⟩
  · exact .inr ⟨_, _, ‹_›, leaves_next h⟩

/-- CALL fails on a full stack and otherwise pushes (R103). -/
theorem execCall_leaves {nnn : Addr12} {s t : State} (h : Leaves (execCall nnn s) t) :
    t = s ∨ (s.stack.length < stackDepth ∧ t = (s.push s.nextPc).jumpTo (targetOf nnn)) := by
  unfold execCall at h
  split at h
  · exact .inl (leaves_fault h)
  · rename_i hfull
    exact .inr ⟨by simpa [State.stackFull] using hfull, leaves_next h⟩

/-- DRW fails past the end of memory and otherwise changes the screen and then VF (R113). -/
theorem execDrw_leaves {x y : RegId} {n : Nibble} {s t : State} (h : Leaves (execDrw x y n s) t) :
    t = s ∨ ∃ u f, SameButScreen s u ∧ t = u.setFlag f := by
  by_cases hend : memSize < s.I.toNat + n.toNat
  · rw [execDrw, spriteRead_none _ _ _ hend] at h
    exact .inl (leaves_fault h)
  · rw [execDrw, spriteRead_ok _ _ _ (by omega)] at h
    obtain ⟨hscreen, -⟩ := drawRows_spec (s.getV x).toNat (Memory.readBlock s.mem s.I.toNat n.toNat) (s.getV y).toNat
      (s, false) (by rw [Memory.readBlock_length]; omega)
    exact .inr ⟨_, _, hscreen, leaves_next h⟩

/-! ## The frame of Execute (R17, R18, R21, R23 to R30, R42) -/

/-- Execute keeps the data of every part the rules do not let the instruction write. -/
theorem exec_keptBut {i : Instr} {s t : State} (h : Leaves (exec i s) t) : KeptBut (partsWritten i) s t := by
  cases i with
  | cls | sys | jp | jpV0 | ldImm | ldReg | orReg | andReg | xorReg | addReg | subReg | shrReg | subnReg | shlReg | ldI
  | rnd | ldVxDT | ldVxK | ldDTVx | ldSTVx | addI | ldF =>
    obtain rfl := leaves_next h
    simp [keptBut_iff, partsWritten]
  | addImm =>
    obtain rfl := leaves_next h
    simp [keptBut_iff, partsWritten, addImmWritesVF]
  | seImm | sneImm | seReg | sneReg =>
    obtain rfl | rfl := skipIf_leaves h <;> simp [keptBut_iff, partsWritten]
  | skp | sknp =>
    obtain rfl | rfl := skipOnKey_leaves h <;> simp [keptBut_iff, partsWritten]
  | ret =>
    obtain ⟨-, rfl⟩ | ⟨a, rest, -, rfl⟩ := execRet_leaves h <;> simp [keptBut_iff, partsWritten]
  | call =>
    obtain rfl | ⟨-, rfl⟩ := execCall_leaves h <;> simp [keptBut_iff, partsWritten]
  | drw =>
    obtain rfl | ⟨u, f, hu, rfl⟩ := execDrw_leaves h
    · simp [keptBut_iff]
    · rw [SameButScreen] at hu
      rw [hu]
      simp [keptBut_iff, partsWritten]
  | ldB =>
    obtain rfl | ⟨-, -, rfl⟩ := execLdB_leaves _ _ _ h <;> simp [keptBut_iff, partsWritten]
  | dumpRegs =>
    obtain ⟨-, rfl⟩ | ⟨-, rfl⟩ := execDumpRegs_leaves _ _ _ h <;> simp [keptBut_iff, partsWritten]
  | loadRegs => exact (execLoadRegs_leaves _ _ _ h).1.kept

/-- Execute keeps every register but the instruction's destinations and, for the flag writers, VF (R17, R18). -/
theorem exec_getV {i : Instr} {s t : State} (h : Leaves (exec i s) t) {r : RegId} (hr : ¬ writesReg i r) :
    t.getV r = s.getV r := by
  by_cases hregs : Part.regs ∈ partsWritten i
  · cases i with
    | ldImm | ldReg | orReg | andReg | xorReg | rnd | ldVxDT =>
      obtain rfl := leaves_next h
      exact (State.getV_setV ..).trans (if_neg (Ne.symm hr))
    | addImm | addReg | subReg | subnReg =>
      obtain rfl := leaves_next h
      obtain ⟨hx, hF⟩ := not_or.mp hr
      exact (State.getV_resultThenFlag ..).trans ((if_neg (Ne.symm hF)).trans (if_neg (Ne.symm hx)))
    | shrReg | shlReg =>
      obtain rfl := leaves_next h
      obtain ⟨hx, hF⟩ := not_or.mp hr
      exact (State.getV_flagThenResult ..).trans ((if_neg (Ne.symm hx)).trans (if_neg (Ne.symm hF)))
    | drw =>
      obtain rfl | ⟨u, f, hu, rfl⟩ := execDrw_leaves h
      · rfl
      · exact (State.getV_setFlag ..).trans ((if_neg (Ne.symm hr)).trans (hu.unchanged .regs (by simp) r))
    | loadRegs =>
      rw [(execLoadRegs_leaves _ _ _ h).2 r, if_neg fun hload => hr hload.1]
    | _ => simp [partsWritten] at hregs
  · exact (exec_keptBut h .regs hregs).same r

/-- Settles O48, from the frame of Execute by the stored data, and the bytes the two storing instructions leave. -/
theorem instructionsWriteOnlyTheirOwn : Obligations.InstructionsWriteOnlyTheirOwn := by
  intro i s t h
  refine ⟨(exec_keptBut h).unchanged, fun r hr => exec_getV h hr, ?_, ?_⟩
  · rintro x rfl b hb
    obtain rfl | ⟨-, -, rfl⟩ := execLdB_leaves x s t h
    · rfl
    · exact byteAt_storeBlock_other s _ b _ hb
  · rintro x rfl b hb
    obtain ⟨-, rfl⟩ | ⟨-, rfl⟩ := execDumpRegs_leaves x s t h
    · rfl
    · refine byteAt_storeBlock_other s _ b _ (hb.imp_right fun hb => le_trans ?_ hb)
      simp [regsThrough_length]

/-! ## What Execute does to memory (R42, R46, R55) -/

/-- Execute keeps the memory, or stores a block that lies between the protected region and the end of memory. -/
theorem exec_mem {i : Instr} {s t : State} (h : Leaves (exec i s) t) :
    t.mem = s.mem ∨ ∃ a bs, unprotectedStart ≤ a ∧ a + bs.length ≤ memSize ∧ t.mem = Memory.writeBlock s.mem a bs := by
  by_cases hmem : Part.memory ∈ partsWritten i
  · cases i with
    | ldB =>
      obtain rfl | ⟨hlow, hhigh, rfl⟩ := execLdB_leaves _ _ _ h
      · exact .inl rfl
      · exact .inr ⟨_, _, hlow, by exact hhigh, rfl⟩
    | dumpRegs x =>
      obtain ⟨-, rfl⟩ | ⟨hlow, rfl⟩ := execDumpRegs_leaves _ _ _ h
      · exact .inl rfl
      · by_cases hend : s.I.toNat ≤ memSize
        · exact .inr ⟨_, _, hlow, by simp; omega, rfl⟩
        · rw [show memSize - s.I.toNat = 0 by omega]
          exact .inl rfl
    | _ => simp [partsWritten] at hmem
  · exact .inl (exec_keptBut h .memory hmem)

theorem exec_wf {i : Instr} {s t : State} (h : Leaves (exec i s) t) (hwf : Memory.wf s.mem) : Memory.wf t.mem := by
  obtain hmem | ⟨a, bs, -, hend, hmem⟩ := exec_mem h <;> rw [hmem]
  · exact hwf
  · exact Memory.writeBlock_wf bs s.mem a hwf hend

/-- No instruction changes a byte of the protected region (R55). -/
theorem exec_byteAt_protected {i : Instr} {s t : State} (h : Leaves (exec i s) t) {b : Nat} (hb : b < unprotectedStart) :
    t.byteAt b = s.byteAt b := by
  rw [State.byteAt, State.byteAt]
  obtain hmem | ⟨a, bs, hlow, -, hmem⟩ := exec_mem h <;> rw [hmem]
  exact Memory.read_writeBlock_other bs s.mem a b (.inl (by omega))

/-! ## What Execute does to pc, stack and jump (R21, R24, R30, R75) -/

/-- A target is nnn, zero-extended (R61). -/
theorem targetOf_toNat (nnn : Addr12) : (targetOf nnn).toNat = nnn.toNat := by
  simp [targetOf]; omega

/-- The sum of Bnnn is exact (R108). -/
theorem indexedTarget_toNat (nnn : Addr12) (s : State) :
    (indexedTarget nnn s).toNat = nnn.toNat + (s.getV 0).toNat := by
  rw [indexedTarget, BitVec.toNat_add, targetOf_toNat]
  simp; omega

/-- Execute leaves `pc`, stack and `jump` as they were, or is a skip that advanced, or requested a jump: to a target of at most
0x10FE with the stack kept, to the address it popped, or to a target below 4096 with the next address pushed. -/
theorem exec_control {i : Instr} {s t : State} (h : Leaves (exec i s) t) :
    (t.pc = s.pc ∧ t.stack = s.stack ∧ t.jump = s.jump) ∨
    (isSkip i = true ∧ t = s.advancePc) ∨
    (requestsJump i = true ∧ t.jump = true ∧
      ((t.stack = s.stack ∧ t.pc.toNat ≤ 0x10FE) ∨
       s.stack = t.pc :: t.stack ∨
       (s.stack.length < stackDepth ∧ t.stack = s.nextPc :: s.stack ∧ t.pc.toNat < 4096))) := by
  have hkept := exec_keptBut h
  cases i with
  | seImm | sneImm | seReg | sneReg =>
    obtain rfl | rfl := skipIf_leaves h
    · exact .inl ⟨rfl, rfl, rfl⟩
    · exact .inr (.inl ⟨rfl, rfl⟩)
  | skp | sknp =>
    obtain rfl | rfl := skipOnKey_leaves h
    · exact .inl ⟨rfl, rfl, rfl⟩
    · exact .inr (.inl ⟨rfl, rfl⟩)
  | jp nnn =>
    obtain rfl := leaves_next h
    refine .inr (.inr ⟨rfl, rfl, .inl ⟨rfl, ?_⟩⟩)
    rw [State.jumpTo_pc, targetOf_toNat]
    omega
  | jpV0 nnn =>
    obtain rfl := leaves_next h
    refine .inr (.inr ⟨rfl, rfl, .inl ⟨rfl, ?_⟩⟩)
    rw [State.jumpTo_pc, indexedTarget_toNat]
    omega
  | ret =>
    obtain ⟨-, rfl⟩ | ⟨a, rest, hstack, rfl⟩ := execRet_leaves h
    · exact .inl ⟨rfl, rfl, rfl⟩
    · exact .inr (.inr ⟨rfl, rfl, .inr (.inl hstack)⟩)
  | call nnn =>
    obtain rfl | ⟨hroom, rfl⟩ := execCall_leaves h
    · exact .inl ⟨rfl, rfl, rfl⟩
    · refine .inr (.inr ⟨rfl, rfl, .inr (.inr ⟨hroom, rfl, ?_⟩)⟩)
      rw [State.jumpTo_pc, targetOf_toNat]
      omega
  | _ =>
    exact .inl ⟨hkept .pc (by simp [partsWritten]), hkept .stack (by simp [partsWritten]),
      hkept .jump (by simp [partsWritten])⟩

/-- The advance is exact wherever a run's `pc` can be (R21, R75). -/
theorem add_instrBytes_toNat {a : Word} (h : a.toNat < 0xFFFE) : (a + instrBytes).toNat = a.toNat + 2 := by
  rw [BitVec.toNat_add, show instrBytes.toNat = 2 from rfl]
  omega

/-- Adding 2 to a word keeps its parity, also where the sum wraps. -/
theorem add_instrBytes_parity (a : Word) : (a + instrBytes).toNat % 2 = a.toNat % 2 := by
  simp [instrBytes, BitVec.toNat_add]

/-- Settles O11: without a jump, the end of the cycle and at most one skip each add 2. -/
theorem pcKeepsItsParity : Obligations.PcKeepsItsParity := by
  intro s t w i hjump hfetch hdecode hnojump hcycle
  rw [transact_cycle] at hcycle
  cases hb : s.blocked with
  | waitingKey x =>
    rw [cycle_blocked s x hb] at hcycle
    rw [← Host.Outcome.next.inj hcycle]
  | notBlocked =>
    rw [cycle_notBlocked s hb, fetchDecodeExecute_runs s w i hfetch hdecode] at hcycle
    obtain ⟨u, hexec, rfl⟩ := (finishCycle_next_iff _ _).mp hcycle
    obtain ⟨hpc, -, hj⟩ | ⟨-, rfl⟩ | ⟨hreq, -⟩ := exec_control (.inl hexec)
    · rw [State.endCycle_of_not_jump _ (hj.trans hjump), State.clearJump_pc, State.advancePc_pc, hpc,
        add_instrBytes_parity]
    · rw [State.endCycle_of_not_jump s.advancePc hjump, State.clearJump_pc, State.advancePc_pc, State.advancePc_pc,
        add_instrBytes_parity, add_instrBytes_parity]
    · rw [hnojump] at hreq
      exact absurd hreq Bool.false_ne_true

/-! ## Power-on (R34, R142) -/

theorem reset_getV (r : RegId) : State.reset.getV r = 0 := by
  simp [State.getV, State.reset, Vector.get_eq_getElem]

theorem reset_getKey (k : KeyId) : State.reset.getKey k = .released := by
  simp [State.getKey, State.reset, Vector.get_eq_getElem]

theorem reset_pixel (u : Fin Config.screenW) (v : Fin Config.screenH) : State.reset.pixel u v = .off :=
  State.reset.pixel_clear u v

/-- Settles O17, field by field of the power-on state. -/
theorem powerOnState : Obligations.PowerOnState :=
  ⟨reset_getV, rfl, rfl, rfl, rfl, rfl, fun _ => rfl, reset_pixel, rfl, reset_getKey, rfl, rfl⟩

/-- Settles O18: memory and stack are empty and `pc` is 0x200. -/
theorem invariantHoldsAtPowerOn : Obligations.InvariantHoldsAtPowerOn := fun _ =>
  { memWf := ⟨List.Pairwise.nil, fun _ h => absurd h List.not_mem_nil⟩
    stackBound := Nat.zero_le _
    returnAddresses := fun _ h => absurd h List.not_mem_nil
    pcBound := show pcReset.toNat ≤ 0x10FE by decide
    jumpClear := rfl
    protectedRegion := .inl fun _ _ => rfl }

/-! ## The invariant within a cycle -/

theorem ProtectedRegion.of_bytes {s t : State} (h : ProtectedRegion s)
    (hbytes : ∀ a, a < unprotectedStart → t.byteAt a = s.byteAt a) : ProtectedRegion t :=
  h.imp (fun h a ha => (hbytes a ha).trans (h a ha)) fun h a ha => (hbytes a ha).trans (h a ha)

/-- What holds between Execute and the end of the cycle: the invariant, but that `jump` may be set, and that where it is not,
`pc` still has room for the advance. -/
structure InvAfterExecute (s : State) : Prop where
  memWf : Memory.wf s.mem
  stackBound : s.stack.length ≤ stackDepth
  returnAddresses : ∀ a ∈ s.stack, 0x202 ≤ a.toNat ∧ a.toNat ≤ 0x1000
  pcBound : s.pc.toNat ≤ 0x1000 ∨ (s.jump = true ∧ s.pc.toNat ≤ 0x10FE)
  protectedRegion : ProtectedRegion s

/-- The advance of a successful cycle restores the invariant (R75). -/
theorem InvAfterExecute.endCycle {s : State} (h : InvAfterExecute s) : Inv s.endCycle where
  memWf := by simpa using h.memWf
  stackBound := by simpa using h.stackBound
  returnAddresses := by simpa using h.returnAddresses
  pcBound := by
    rw [State.endCycle_pc]
    have hpc := h.pcBound
    split
    · omega
    · have hpc : s.pc.toNat ≤ 0x1000 := hpc.resolve_right fun hj => ‹¬ _› hj.1
      rw [add_instrBytes_toNat (by omega)]
      omega
  jumpClear := s.endCycle_jump
  protectedRegion := h.protectedRegion.of_bytes fun a _ => s.endCycle_byteAt a

/-- So does the cleared `jump` of a failed one (R76). -/
theorem InvAfterExecute.clearJump {s : State} (h : InvAfterExecute s) : Inv s.clearJump where
  memWf := h.memWf
  stackBound := h.stackBound
  returnAddresses := h.returnAddresses
  pcBound := by
    have hpc := h.pcBound
    rw [State.clearJump_pc]
    omega
  jumpClear := rfl
  protectedRegion := h.protectedRegion

theorem fetch_some_range {a : Nat} {s : State} {w : Word} (h : fetch a s = some w) :
    0x200 ≤ a ∧ a + 1 < 4096 := by
  refine (fetchable_iff a).mp (Bool.of_not_eq_false fun hf => ?_)
  simp [fetch, hf] at h

/-- Execute of a fetched instruction, whether it succeeds or fails, keeps the invariant but for the end of the cycle. -/
theorem exec_invAfterExecute {i : Instr} {s t : State} {w : Word} (hs : Inv s) (hfetch : fetch s.pc.toNat s = some w)
    (h : Leaves (exec i s) t) : InvAfterExecute t := by
  obtain ⟨hlow, hhigh⟩ := fetch_some_range hfetch
  have hnext : s.nextPc.toNat = s.pc.toNat + 2 := add_instrBytes_toNat (by omega)
  have hdepth := hs.stackBound
  have haddr := hs.returnAddresses
  have hcontrol : t.stack.length ≤ stackDepth ∧ (∀ a ∈ t.stack, 0x202 ≤ a.toNat ∧ a.toNat ≤ 0x1000) ∧
      (t.pc.toNat ≤ 0x1000 ∨ (t.jump = true ∧ t.pc.toNat ≤ 0x10FE)) := by
    obtain ⟨hpc, hstack, -⟩ | ⟨-, rfl⟩ | ⟨-, hjump, ⟨hstack, hpc⟩ | hpop | ⟨hroom, hpush, hpc⟩⟩ := exec_control h
    · rw [hpc, hstack]
      exact ⟨hdepth, haddr, .inl (by omega)⟩
    · exact ⟨hdepth, haddr, .inl (show s.nextPc.toNat ≤ 0x1000 by omega)⟩
    · rw [hstack]
      exact ⟨hdepth, haddr, .inr ⟨hjump, hpc⟩⟩
    · rw [hpop] at hdepth haddr
      obtain ⟨htop, hrest⟩ := List.forall_mem_cons.mp haddr
      exact ⟨Nat.le_of_succ_le hdepth, hrest, .inl htop.2⟩
    · rw [hpush]
      exact ⟨hroom, List.forall_mem_cons.mpr ⟨by omega, haddr⟩, .inl (by omega)⟩
  obtain ⟨hstack, haddr, hpc⟩ := hcontrol
  exact { memWf := exec_wf h hs.memWf, stackBound := hstack, returnAddresses := haddr, pcBound := hpc,
          protectedRegion := hs.protectedRegion.of_bytes fun _ hb => exec_byteAt_protected h hb }

/-! ## The invariant over every transaction -/

/-- The invariant speaks of memory, stack, `pc` and `jump` alone. -/
theorem Inv.of_eq {s t : State} (hs : Inv s) (hmem : t.mem = s.mem) (hstack : t.stack = s.stack) (hpc : t.pc = s.pc)
    (hjump : t.jump = s.jump) : Inv t where
  memWf := hmem ▸ hs.memWf
  stackBound := hstack ▸ hs.stackBound
  returnAddresses := hstack ▸ hs.returnAddresses
  pcBound := hpc ▸ hs.pcBound
  jumpClear := hjump.trans hs.jumpClear
  protectedRegion := hs.protectedRegion.of_bytes fun a _ => congrArg (Memory.read · a) hmem

theorem finishCycle_leaves {r : Result} {t : State} (h : Leaves (finishCycle r) t) :
    (∃ u, r = .next u ∧ t = u.endCycle) ∨ ∃ f, r = .fault f ∧ t = f.after.clearJump := by
  cases r with
  | next u => exact .inl ⟨u, rfl, leaves_next h⟩
  | fault f => exact .inr ⟨f, rfl, (leaves_fault h).trans (f.after_mapAfter _)⟩
  | refused r => simp [Leaves, finishCycle] at h

/-- A cycle keeps the invariant, on Ok and on Err (R73 to R76). -/
theorem cycle_inv {s t : State} (hs : Inv s) (h : Leaves (cycle s) t) : Inv t := by
  have hclear : Inv s.clearJump := hs.of_eq rfl rfl rfl hs.jumpClear.symm
  cases hb : s.blocked with
  | waitingKey x =>
    rw [cycle_blocked s x hb] at h
    rwa [leaves_next h]
  | notBlocked =>
    rw [cycle_notBlocked s hb] at h
    obtain ⟨-, hrun⟩ | ⟨w, -, -, hrun⟩ | ⟨w, i, hfetch, -, hrun⟩ := fetchDecodeExecute_cases s <;> rw [hrun] at h
    · rwa [leaves_fault h]
    · rwa [leaves_fault h]
    · obtain ⟨u, hexec, rfl⟩ | ⟨f, hexec, rfl⟩ := finishCycle_leaves h
      · exact (exec_invAfterExecute hs hfetch (.inl hexec)).endCycle
      · exact (exec_invAfterExecute hs hfetch (.inr ⟨f, hexec, rfl⟩)).clearJump

/-- A program load leaves the reset core with the font, and where it succeeds the program in the program region and `pc` at
its address (R145). -/
theorem loadProgramToAddress_leaves {bytes : List Byte} {a : Nat} {s t : State}
    (h : Leaves (loadProgramToAddress bytes a s) t) :
    t = installFont (resetCore s) ∨ (unprotectedStart ≤ a ∧ a + bytes.length ≤ memSize ∧
      t = ((installFont (resetCore s)).storeBlock a bytes).setPc (BitVec.ofNat 16 a)) := by
  unfold loadProgramToAddress at h
  obtain ⟨-, hw⟩ | ⟨-, -, hw⟩ | ⟨hlow, hend, hw⟩ := memWriteRestricted_cases a bytes (installFont (resetCore s)) <;>
    simp only [hw] at h
  · exact .inl (leaves_fault h)
  · exact .inl (leaves_fault h)
  · exact .inr ⟨hlow, hend, leaves_next h⟩

/-- The reset core with the font installed satisfies the invariant, whatever state it was reset from (R143 to R145). -/
theorem installFont_inv (s : State) : Inv (installFont (resetCore s)) := by
  have hfont := installFont_unchanged (resetCore s)
  have hstack : (installFont (resetCore s)).stack = [] := hfont .stack (by simp)
  have hpc : (installFont (resetCore s)).pc = pcReset := hfont .pc (by simp)
  exact
    { memWf := installFont_wf s
      stackBound := by simp [hstack]
      returnAddresses := by simp [hstack]
      pcBound := by rw [hpc]; decide
      jumpClear := hfont .jump (by simp)
      protectedRegion := .inr fun b _ => installFont_byteAt s b }

/-- Storing a program in the program region and entering it keeps the invariant. -/
theorem Inv.enterProgram {s : State} (hs : Inv s) {bytes : List Byte} {a : Nat} (hlow : unprotectedStart ≤ a)
    (hend : a + bytes.length ≤ memSize) : Inv ((s.storeBlock a bytes).setPc (BitVec.ofNat 16 a)) where
  memWf := storeBlock_wf s a bytes hs.memWf hend
  stackBound := hs.stackBound
  returnAddresses := hs.returnAddresses
  pcBound := by
    rw [State.setPc_pc, BitVec.toNat_ofNat]
    rw [memSize] at hend
    omega
  jumpClear := hs.jumpClear
  protectedRegion := hs.protectedRegion.of_bytes fun b hb => byteAt_storeBlock_other s a b bytes (.inl (by omega))

/-- A program load establishes the invariant, on Ok and on Err, from any state (R145). -/
theorem loadProgramToAddress_inv {bytes : List Byte} {a : Nat} {s t : State}
    (h : Leaves (loadProgramToAddress bytes a s) t) : Inv t := by
  obtain rfl | ⟨hlow, hend, rfl⟩ := loadProgramToAddress_leaves h
  · exact installFont_inv s
  · exact (installFont_inv s).enterProgram hlow hend

/-- The timers and the key events write nothing the invariant speaks of (R77 to R79). -/
theorem updateTimers_inv {s : State} (hs : Inv s) : Inv (updateTimers s) := by
  unfold updateTimers
  split
  · exact hs
  · exact hs.of_eq rfl rfl rfl rfl

theorem keyUp_inv {s : State} (hs : Inv s) (k : KeyId) : Inv (keyUp k s) := by
  unfold keyUp
  split <;> exact hs.of_eq rfl rfl rfl rfl

theorem transact_inv {c : Transaction} {s t : State} (hs : Inv s) (h : Leaves (transact c s) t) : Inv t := by
  cases c with
  | loadProgram | loadProgramToAddress => exact loadProgramToAddress_inv h
  | cycle => exact cycle_inv hs h
  | updateTimers => rw [leaves_next h]; exact updateTimers_inv hs
  | keyUp k => rw [leaves_next h]; exact keyUp_inv hs k
  | keyDown | isBlocked | readPixel | readDirty | clearDirty | readSoundTimer =>
    rw [leaves_next h]
    exact hs.of_eq rfl rfl rfl rfl

/-- Settles O51: a step is a cycle or the host's next transaction, and each keeps the invariant. -/
theorem everyStepKeepsTheInvariant : Obligations.EveryStepKeepsTheInvariant := by
  intro s t hs h
  cases hcalls : s.hostCalls with
  | nil =>
    rw [step_of_noCalls s hcalls] at h
    exact cycle_inv hs h
  | cons c cs =>
    rw [step_of_call s c cs hcalls] at h
    exact transact_inv (s := { s with hostCalls := cs }) (hs.of_eq rfl rfl rfl rfl) h

end Sys2Proof.Machine
end

/-! # The memory family (20_memory.md): the fetch, the protected region, and stores as later fetches see them -/

section
namespace Sys2Proof.Machine

/-! ## The fetch (R50, R52) -/

theorem clearJump_unchanged (s : State) : UnchangedBut [.jump] s s.clearJump :=
  KeptBut.unchanged (by simp [keptBut_iff])

/-- A cycle that cannot fetch reports `pc` and clears `jump` (R52, R76). -/
theorem cycle_unfetchable {s : State} (hb : s.blocked = .notBlocked) (h : fetch s.pc.toNat s = none) :
    cycle s = .fault (.invalidMemoryAccess s.pc.toNat s.clearJump) := by
  rw [cycle_notBlocked s hb, fetchDecodeExecute_unfetchable s h]
  rfl

/-- Settles O6, by the two cases of the fetch and the cycle of an unfetchable `pc`. -/
theorem fetchRangeAndByteOrder : Obligations.FetchRangeAndByteOrder := by
  intro a s
  refine ⟨fetch_none a s, fun hlow hhigh => ⟨_, fetch_ok a s hlow hhigh, wordOfBytes_toNat _ _⟩, ?_⟩
  rintro hb rfl hout
  exact ⟨s.clearJump, cycle_unfetchable hb (fetch_none _ s hout), clearJump_unchanged s, rfl⟩

/-! ## The protected region over a cycle (R42, R46, R55) -/

/-- Everything a cycle can leave, on Ok and on Err: its state while blocked, its state with `jump` cleared where nothing was
fetched or decoded, and otherwise what Execute left, after the end of the cycle or with `jump` cleared. -/
theorem cycle_leaves {s t : State} (h : Leaves (cycle s) t) :
    (∃ x, s.blocked = .waitingKey x ∧ t = s) ∨
    (s.blocked = .notBlocked ∧ fetch s.pc.toNat s = none ∧ t = s.clearJump) ∨
    (∃ w, s.blocked = .notBlocked ∧ fetch s.pc.toNat s = some w ∧ decodeWord w = none ∧ t = s.clearJump) ∨
    (∃ w i u, s.blocked = .notBlocked ∧ fetch s.pc.toNat s = some w ∧ decodeWord w = some i ∧
      ((exec i s = .next u ∧ t = u.endCycle) ∨ ∃ f, exec i s = .fault f ∧ f.after = u ∧ t = u.clearJump)) := by
  cases hb : s.blocked with
  | waitingKey x =>
    rw [cycle_blocked s x hb] at h
    exact .inl ⟨x, rfl, leaves_next h⟩
  | notBlocked =>
    rw [cycle_notBlocked s hb] at h
    obtain ⟨hfetch, hrun⟩ | ⟨w, hfetch, hdecode, hrun⟩ | ⟨w, i, hfetch, hdecode, hrun⟩ := fetchDecodeExecute_cases s <;>
      rw [hrun] at h
    · exact .inr (.inl ⟨rfl, hfetch, leaves_fault h⟩)
    · exact .inr (.inr (.inl ⟨w, rfl, hfetch, hdecode, leaves_fault h⟩))
    · obtain ⟨u, hexec, ht⟩ | ⟨f, hexec, ht⟩ := finishCycle_leaves h
      · exact .inr (.inr (.inr ⟨w, i, u, rfl, hfetch, hdecode, .inl ⟨hexec, ht⟩⟩))
      · exact .inr (.inr (.inr ⟨w, i, f.after, rfl, hfetch, hdecode, .inr ⟨f, hexec, rfl, ht⟩⟩))

/-- Settles O49: Execute keeps the protected bytes, and the rest of a cycle stores nothing. -/
theorem cyclesNeverChangeTheProtectedRegion : Obligations.CyclesNeverChangeTheProtectedRegion := by
  intro s t h a ha
  obtain ⟨-, -, rfl⟩ | ⟨-, -, rfl⟩ | ⟨-, -, -, -, rfl⟩ | ⟨-, i, u, -, -, -, hexec⟩ := cycle_leaves h
  · rfl
  · rfl
  · rfl
  · obtain ⟨hexec, rfl⟩ | ⟨f, hexec, rfl, rfl⟩ := hexec
    · exact (u.endCycle_byteAt a).trans (exec_byteAt_protected (.inl hexec) ha)
    · exact exec_byteAt_protected (.inr ⟨f, hexec, rfl⟩) ha

/-! ## Stores as later fetches see them (R50, R52, R58) -/

/-- Below `a + n` no more than the first `n` of the bytes stored from `a` on are seen. -/
theorem overlaid_take (a n : Nat) (bs : List Byte) (s : State) (b : Nat) (h : b < a + n) :
    overlaid a (bs.take n) s b = overlaid a bs s b := by
  unfold overlaid
  split
  · rw [List.getD_eq_getElem?_getD, List.getElem?_take_of_lt (by omega), List.getD_eq_getElem?_getD]
  · rfl

/-- The overlaid byte depends on what was there at that address alone. -/
theorem overlaid_congr {a : Nat} {bs : List Byte} {s s' : State} {b : Nat} (h : s.byteAt b = s'.byteAt b) :
    overlaid a bs s b = overlaid a bs s' b := by
  unfold overlaid
  rw [h]

/-- Of a store that goes past the end of memory, every fetch sees as much as lies inside it. -/
theorem fetchSees_storeBlock_take (s : State) (a : Nat) (bs : List Byte) (hm : Memory.wf s.mem) :
    FetchSees a bs s (s.storeBlock a (bs.take (memSize - a))) :=
  fetchSees_of_bytes fun b _ hb => by
    rw [byteAt_storeBlock_overlaid s a _ hm, overlaid_take a _ bs s b (by rw [memSize]; omega)]

theorem fetchSees_storeBlock (s : State) (a : Nat) (bs : List Byte) (hm : Memory.wf s.mem) :
    FetchSees a bs s (s.storeBlock a bs) :=
  fetchSees_of_bytes fun b _ _ => byteAt_storeBlock_overlaid s a bs hm b

theorem regsThrough_eq_map_range (x : RegId) : regsThrough x = (List.range (x.val + 1)).map (Fin.ofNat 16) := by
  revert x; decide

/-- Fx55 from an unprotected address, whether it succeeds or fails (R125). -/
theorem execDumpRegs_fetchSees {x : RegId} {s t : State} (hm : Memory.wf s.mem) (hlow : unprotectedStart ≤ s.I.toNat)
    (h : Leaves (execDumpRegs x s) t) : FetchSees s.I.toNat ((regsThrough x).map s.getV) s t := by
  obtain ⟨hlow', -⟩ | ⟨-, rfl⟩ := execDumpRegs_leaves x s t h
  · exact absurd hlow' (Nat.not_lt.mpr hlow)
  · rw [List.map_take]
    exact fetchSees_storeBlock_take s _ _ hm

/-- Fx33 that succeeds has stored the three digits (R124). -/
theorem execLdB_next {x : RegId} {s t : State} (h : execLdB x s = .next t) : t = s.storeBlock s.I.toNat
    [(bcdDigits (s.getV x)).1, (bcdDigits (s.getV x)).2.1, (bcdDigits (s.getV x)).2.2] := by
  by_cases hend : memSize ≤ s.I.toNat + 2
  · simp [execLdB_pastEnd x s hend] at h
  · by_cases hlow : s.I.toNat < unprotectedStart
    · simp [execLdB_protected x s (by omega) hlow] at h
    · rw [execLdB_ok x s (by omega) (by omega)] at h
      exact (Host.Outcome.next.inj h).symm

/-- A program load that succeeds has stored the program over the font and zeros (R145). -/
theorem loadProgramToAddress_next {bytes : List Byte} {a : Nat} {s t : State}
    (h : loadProgramToAddress bytes a s = .next t) :
    t = ((installFont (resetCore s)).storeBlock a bytes).setPc (BitVec.ofNat 16 a) := by
  unfold loadProgramToAddress at h
  obtain ⟨-, hw⟩ | ⟨-, -, hw⟩ | ⟨-, -, hw⟩ := memWriteRestricted_cases a bytes (installFont (resetCore s)) <;>
    simp only [hw] at h
  · simp [raise] at h
  · simp [raise] at h
  · exact (Host.Outcome.next.inj h).symm

/-- Outside the protected region a load leaves zeros before it stores the program (R144, R145). -/
theorem installFont_byteAt_unprotected (s : State) {b : Nat} (hb : unprotectedStart ≤ b) :
    (installFont (resetCore s)).byteAt b = State.reset.byteAt b := by
  rw [installFont_byteAt, List.getD_eq_default _ _ (by rw [font_length]; rw [unprotectedStart] at hb; omega)]
  rfl

/-- A program load that succeeds (R145). -/
theorem loadProgramToAddress_fetchSees {bytes : List Byte} {a : Nat} {s t : State}
    (h : loadProgramToAddress bytes a s = .next t) : FetchSees a bytes State.reset t := by
  obtain rfl := loadProgramToAddress_next h
  refine fetchSees_of_bytes fun b hb _ => ?_
  rw [State.setPc_byteAt, byteAt_storeBlock_overlaid _ a bytes (installFont_wf s)]
  exact overlaid_congr (installFont_byteAt_unprotected s hb)

/-- Settles O50: each of the three leaves a store, and a fetch reads what a store left. -/
theorem storesAreFetched : Obligations.StoresAreFetched := by
  refine ⟨fun x s t hm hlow h => ?_, fun x s t hm h => ?_, fun bytes a s t h => loadProgramToAddress_fetchSees h⟩
  · have hregs : (regsThrough x).map s.getV = (List.range (x.val + 1)).map fun r => s.getV (Fin.ofNat 16 r) := by
      rw [regsThrough_eq_map_range, List.map_map]
      rfl
    exact hregs ▸ execDumpRegs_fetchSees hm hlow h
  · obtain rfl := execLdB_next h
    exact fetchSees_storeBlock s s.I.toNat _ hm

end Sys2Proof.Machine
end

/-! # The encoding family (30_encoding.md): decoder and encoder against each other, and the illegal words -/

section
namespace Sys2Proof

/-! ## Encode, then decode (R60 to R65) -/

/-- The word of a well-formed instruction decodes to it, one law per constructor. -/
theorem decodeWord_encodeWord (i : Instr) : i.wf = true → decodeWord (encodeWord i) = some i :=
  match i with
  | .cls => Laws.Encoding.cls
  | .ret => Laws.Encoding.ret
  | .sys nnn => Laws.Encoding.sys nnn
  | .jp nnn => Laws.Encoding.jp nnn
  | .call nnn => Laws.Encoding.call nnn
  | .seImm x kk => Laws.Encoding.seImm x kk
  | .sneImm x kk => Laws.Encoding.sneImm x kk
  | .seReg x y => Laws.Encoding.seReg x y
  | .ldImm x kk => Laws.Encoding.ldImm x kk
  | .addImm x kk => Laws.Encoding.addImm x kk
  | .ldReg x y => Laws.Encoding.ldReg x y
  | .orReg x y => Laws.Encoding.orReg x y
  | .andReg x y => Laws.Encoding.andReg x y
  | .xorReg x y => Laws.Encoding.xorReg x y
  | .addReg x y => Laws.Encoding.addReg x y
  | .subReg x y => Laws.Encoding.subReg x y
  | .shrReg x y => Laws.Encoding.shrReg x y
  | .subnReg x y => Laws.Encoding.subnReg x y
  | .shlReg x y => Laws.Encoding.shlReg x y
  | .sneReg x y => Laws.Encoding.sneReg x y
  | .ldI nnn => Laws.Encoding.ldI nnn
  | .jpV0 nnn => Laws.Encoding.jpV0 nnn
  | .rnd x kk => Laws.Encoding.rnd x kk
  | .drw x y n => Laws.Encoding.drw x y n
  | .skp x => Laws.Encoding.skp x
  | .sknp x => Laws.Encoding.sknp x
  | .ldVxDT x => Laws.Encoding.ldVxDT x
  | .ldVxK x => Laws.Encoding.ldVxK x
  | .ldDTVx x => Laws.Encoding.ldDTVx x
  | .ldSTVx x => Laws.Encoding.ldSTVx x
  | .addI x => Laws.Encoding.addI x
  | .ldF x => Laws.Encoding.ldF x
  | .ldB x => Laws.Encoding.ldB x
  | .dumpRegs x => Laws.Encoding.dumpRegs x
  | .loadRegs x => Laws.Encoding.loadRegs x

/-- Settles O1: the bytes of an instruction are those of its word, and its word decodes to it. -/
theorem encodeThenDecode : Obligations.EncodeThenDecode := by
  intro i rest hwf
  rw [encode, decode_bytesOfWord, decodeWord_encodeWord i hwf]

/-- Settles O4, by running the decoder on the ten words. -/
theorem wordsOfEveryFormatDecode : Obligations.WordsOfEveryFormatDecode := by
  unfold Obligations.WordsOfEveryFormatDecode
  decide

/-! ## A word is put together from its fields (R61, R62) -/

/-- The first nibble of a word, w[15:12], which the patterns of R64 all fix. -/
def opField (w : Word) : Nibble := w.extractLsb' 12 4

theorem formatA_fields (w : Word) : formatA (opField w) (nnnField w) = w := (word_split w).symm

/-- x and kk are the parts of nnn. -/
theorem xField_eq (w : Word) : BitVec.ofFin (xField w) = (nnnField w).extractLsb' 8 4 := by
  show w.extractLsb' 8 4 = (nnnField w).extractLsb' 8 4
  ext i hi; simp [nnnField, BitVec.getElem_extractLsb']

theorem kkField_eq (w : Word) : kkField w = (nnnField w).extractLsb' 0 8 := by
  ext i hi; simp [nnnField, kkField, BitVec.getElem_extractLsb']

theorem nnnField_join (w : Word) : joinLow (BitVec.ofFin (xField w)) (kkField w) = nnnField w := by
  rw [xField_eq, kkField_eq]
  exact (low_split (nnnField w)).symm

theorem kkField_join (w : Word) : joinByte (BitVec.ofFin (yField w)) (nField w) = kkField w := by
  rw [yField_eq, nField_eq]
  exact (byte_split (kkField w)).symm

theorem formatXK_fields (w : Word) : formatXK (opField w) (xField w) (kkField w) = w := by
  rw [formatXK, nnnField_join, formatA_fields]

theorem formatXYN_fields (w : Word) : formatXYN (opField w) (xField w) (yField w) (nField w) = w := by
  rw [formatXYN, kkField_join, formatXK_fields]

/-! ## Which words a row selects, by its mask (R63) -/

/-- A row whose mask fixes the first nibble tests the fields of the word against those of its pattern. -/
theorem selects_fields (r : OpcodeRow) (w : Word) (h : opField r.mask = 0xF) :
    r.selects w = true ↔ opField w = opField r.pattern ∧ nnnField w &&& nnnField r.mask = nnnField r.pattern := by
  conv_lhs => rw [← formatA_fields w, selects_formatA r _ _ h]
  rw [Bool.and_eq_true, beq_iff_eq, beq_iff_eq]
  rfl

section
variable {p : Word} {build : Word → Instr}

theorem selects_mask_FFFF (w : Word) : (OpcodeRow.mk 0xFFFF#16 p build).selects w = true ↔ w = p := by
  rw [OpcodeRow.selects, beq_iff_eq, show w &&& 0xFFFF#16 = w from BitVec.and_allOnes]

theorem selects_mask_F000 (hp : nnnField p = 0) (w : Word) :
    (OpcodeRow.mk 0xF000#16 p build).selects w = true ↔ opField w = opField p := by
  rw [selects_fields _ w (by simp [opField])]
  simp only [show nnnField 0xF000#16 = 0#12 by decide]
  simp [hp]

theorem selects_mask_F0FF (hx : xField p = 0) (w : Word) :
    (OpcodeRow.mk 0xF0FF#16 p build).selects w = true ↔ opField w = opField p ∧ kkField w = kkField p := by
  rw [selects_fields _ w (by simp [opField])]
  simp only [show nnnField 0xF0FF#16 = 255#12 by decide]
  rw [← nnnField_join w, low_byte_test, ← xField_eq, ← kkField_eq, hx]
  simp

theorem selects_mask_F00F (hx : xField p = 0) (hy : yField p = 0) (w : Word) :
    (OpcodeRow.mk 0xF00F#16 p build).selects w = true ↔ opField w = opField p ∧ nField w = nField p := by
  rw [selects_fields _ w (by simp [opField])]
  simp only [show nnnField 0xF00F#16 = 15#12 by decide]
  rw [← nnnField_join w, ← kkField_join w, low_nibble_test, ← xField_eq, ← kkField_eq, ← nField_eq, hx,
    show (kkField p).extractLsb' 4 4 = BitVec.ofFin (yField p) by rw [yField_eq], hy]
  simp

end

/-! ## Decode, then encode (R62 to R64) -/

/-- The encoder gives back every word the row selects. -/
def OpcodeRow.Faithful (r : OpcodeRow) : Prop := ∀ w, r.selects w = true → encodeWord (r.build w) = w

section
variable {p : Word} {build : Word → Instr}

/-- A word with no operand. -/
theorem faithful_fixed (h : ∀ w, encodeWord (build w) = p) : (OpcodeRow.mk 0xFFFF p build).Faithful := by
  intro w hw
  rw [h, (selects_mask_FFFF w).mp hw]

/-- Format F_A. -/
theorem faithful_A (hp : nnnField p = 0) (h : ∀ w, encodeWord (build w) = formatA (opField p) (nnnField w)) :
    (OpcodeRow.mk 0xF000 p build).Faithful := by
  intro w hw
  rw [h, ← (selects_mask_F000 hp w).mp hw, formatA_fields]

/-- Format F_XK. -/
theorem faithful_XK (hp : nnnField p = 0)
    (h : ∀ w, encodeWord (build w) = formatXK (opField p) (xField w) (kkField w)) :
    (OpcodeRow.mk 0xF000 p build).Faithful := by
  intro w hw
  rw [h, ← (selects_mask_F000 hp w).mp hw, formatXK_fields]

/-- Format F_XYN. -/
theorem faithful_XYN (hp : nnnField p = 0)
    (h : ∀ w, encodeWord (build w) = formatXYN (opField p) (xField w) (yField w) (nField w)) :
    (OpcodeRow.mk 0xF000 p build).Faithful := by
  intro w hw
  rw [h, ← (selects_mask_F000 hp w).mp hw, formatXYN_fields]

/-- Format F_XY: the pattern fixes the last nibble. -/
theorem faithful_XY (hx : xField p = 0) (hy : yField p = 0)
    (h : ∀ w, encodeWord (build w) = formatXYN (opField p) (xField w) (yField w) (nField p)) :
    (OpcodeRow.mk 0xF00F p build).Faithful := by
  intro w hw
  obtain ⟨hop, hn⟩ := (selects_mask_F00F hx hy w).mp hw
  rw [h, ← hop, ← hn, formatXYN_fields]

/-- Format F_X: the pattern fixes the last byte. -/
theorem faithful_X (hx : xField p = 0) (h : ∀ w, encodeWord (build w) = formatXK (opField p) (xField w) (kkField p)) :
    (OpcodeRow.mk 0xF0FF p build).Faithful := by
  intro w hw
  obtain ⟨hop, hkk⟩ := (selects_mask_F0FF hx w).mp hw
  rw [h, ← hop, ← hkk, formatXK_fields]

end

theorem opcodeRows1_faithful : ∀ r ∈ opcodeRows1, r.Faithful := by
  simp only [opcodeRows1, List.forall_mem_cons]
  exact ⟨faithful_fixed fun _ => rfl, faithful_fixed fun _ => rfl, faithful_A rfl fun _ => rfl,
    faithful_A rfl fun _ => rfl, faithful_A rfl fun _ => rfl, faithful_XK rfl fun _ => rfl,
    faithful_XK rfl fun _ => rfl, faithful_XY rfl rfl fun _ => rfl, List.forall_mem_nil _⟩

theorem opcodeRows2_faithful : ∀ r ∈ opcodeRows2, r.Faithful := by
  simp only [opcodeRows2, List.forall_mem_cons]
  exact ⟨faithful_XK rfl fun _ => rfl, faithful_XK rfl fun _ => rfl, faithful_XY rfl rfl fun _ => rfl,
    faithful_XY rfl rfl fun _ => rfl, faithful_XY rfl rfl fun _ => rfl, faithful_XY rfl rfl fun _ => rfl,
    faithful_XY rfl rfl fun _ => rfl, faithful_XY rfl rfl fun _ => rfl, faithful_XY rfl rfl fun _ => rfl,
    faithful_XY rfl rfl fun _ => rfl, faithful_XY rfl rfl fun _ => rfl, faithful_XY rfl rfl fun _ => rfl,
    List.forall_mem_nil _⟩

theorem opcodeRows3_faithful : ∀ r ∈ opcodeRows3, r.Faithful := by
  simp only [opcodeRows3, List.forall_mem_cons]
  exact ⟨faithful_A rfl fun _ => rfl, faithful_A rfl fun _ => rfl, faithful_XK rfl fun _ => rfl,
    faithful_XYN rfl fun _ => rfl, faithful_X rfl fun _ => rfl, faithful_X rfl fun _ => rfl,
    faithful_X rfl fun _ => rfl, faithful_X rfl fun _ => rfl, faithful_X rfl fun _ => rfl,
    faithful_X rfl fun _ => rfl, faithful_X rfl fun _ => rfl, faithful_X rfl fun _ => rfl,
    faithful_X rfl fun _ => rfl, faithful_X rfl fun _ => rfl, faithful_X rfl fun _ => rfl, List.forall_mem_nil _⟩

theorem opcodeTable_faithful : ∀ r ∈ opcodeTable, r.Faithful := by
  simp only [opcodeTable, List.forall_mem_append]
  exact ⟨⟨opcodeRows1_faithful, opcodeRows2_faithful⟩, opcodeRows3_faithful⟩

/-- The decoder is a search for the first row that selects the word (R63). -/
theorem decodeRows_eq_find? (rows : List OpcodeRow) (w : Word) :
    decodeRows rows w = (rows.find? (·.selects w)).map (·.build w) := by
  induction rows with
  | nil => rfl
  | cons r rows ih =>
    rw [decodeRows, List.find?_cons, ih]
    cases r.selects w <;> rfl

/-- What a word decodes to has the word as its encoding. -/
theorem encodeWord_of_decodeWord {w : Word} {i : Instr} (h : decodeWord w = some i) : encodeWord i = w := by
  rw [decodeWord, decodeRows_eq_find?, Option.map_eq_some_iff] at h
  obtain ⟨r, hfind, rfl⟩ := h
  have hsel := List.find?_some hfind
  exact opcodeTable_faithful r (List.mem_of_find?_eq_some hfind) w hsel

/-- The only terms that are no instructions are the SYS of the words of CLS and RET (R65). -/
theorem wf_eq_false_iff (i : Instr) : i.wf = false ↔ i = .sys 0x0E0 ∨ i = .sys 0x0EE := by
  cases i <;> simp [Instr.wf, Decidable.imp_iff_not_or]

/-- Settles O2: the row that selected the word fixes its encoding, and the words of CLS and RET never reach the
row of SYS. -/
theorem decodeThenEncode : Obligations.DecodeThenEncode := by
  intro w i h
  have hw : encodeWord i = w := encodeWord_of_decodeWord h
  refine ⟨Bool.of_not_eq_false fun hwf => ?_, hw⟩
  subst hw
  obtain rfl | rfl := (wf_eq_false_iff i).mp hwf
  · exact absurd h (by decide)
  · exact absurd h (by decide)

/-! ## The illegal words (R66) -/

/-- A word is illegal when no row selects it. -/
theorem decodeRows_eq_none_iff (rows : List OpcodeRow) (w : Word) :
    decodeRows rows w = none ↔ ∀ r ∈ rows, ¬ r.selects w = true := by
  rw [decodeRows_eq_find?, Option.map_eq_none_iff, List.find?_eq_none]

theorem opField_toNat (w : Word) : (opField w).toNat = w.toNat / 4096 := by
  rw [opField, BitVec.extractLsb'_toNat, Nat.shiftRight_eq_div_pow]
  omega

theorem nField_toNat (w : Word) : (nField w).toNat = w.toNat % 16 := by
  rw [nField, BitVec.extractLsb'_toNat, Nat.shiftRight_zero]

theorem kkField_toNat (w : Word) : (kkField w).toNat = w.toNat % 256 := by
  rw [kkField, BitVec.extractLsb'_toNat, Nat.shiftRight_zero]

/-! The row selection once more, in the numbers R66 speaks in. -/

section
variable {p : Word} {build : Word → Instr}

theorem selects_mask_FFFF_toNat (w : Word) :
    (OpcodeRow.mk 0xFFFF#16 p build).selects w = true ↔ w.toNat = p.toNat := by
  rw [selects_mask_FFFF, BitVec.toNat_inj]

theorem selects_mask_F000_toNat (hp : nnnField p = 0) (w : Word) :
    (OpcodeRow.mk 0xF000#16 p build).selects w = true ↔ w.toNat / 4096 = p.toNat / 4096 := by
  rw [selects_mask_F000 hp, ← BitVec.toNat_inj, opField_toNat, opField_toNat]

theorem selects_mask_F00F_toNat (hx : xField p = 0) (hy : yField p = 0) (w : Word) :
    (OpcodeRow.mk 0xF00F#16 p build).selects w = true ↔
      w.toNat / 4096 = p.toNat / 4096 ∧ w.toNat % 16 = p.toNat % 16 := by
  rw [selects_mask_F00F hx hy, ← BitVec.toNat_inj, ← BitVec.toNat_inj, opField_toNat, opField_toNat, nField_toNat,
    nField_toNat]

theorem selects_mask_F0FF_toNat (hx : xField p = 0) (w : Word) :
    (OpcodeRow.mk 0xF0FF#16 p build).selects w = true ↔
      w.toNat / 4096 = p.toNat / 4096 ∧ w.toNat % 256 = p.toNat % 256 := by
  rw [selects_mask_F0FF hx, ← BitVec.toNat_inj, ← BitVec.toNat_inj, opField_toNat, opField_toNat, kkField_toNat,
    kkField_toNat]

end

theorem opcodeRows1_eq_none_iff (w : Word) : decodeRows opcodeRows1 w = none ↔
    5 ≤ w.toNat / 4096 ∧ (w.toNat / 4096 = 5 → w.toNat % 16 ≠ 0) := by
  rw [decodeRows_eq_none_iff]
  simp (disch := decide) [opcodeRows1, selects_mask_FFFF_toNat, selects_mask_F000_toNat, selects_mask_F00F_toNat,
    -Bool.not_eq_true]
  omega

theorem opcodeRows2_eq_none_iff (w : Word) : decodeRows opcodeRows2 w = none ↔
    w.toNat / 4096 ∉ [0x6, 0x7] ∧
    (w.toNat / 4096 = 8 → w.toNat % 16 ∉ [0x0, 0x1, 0x2, 0x3, 0x4, 0x5, 0x6, 0x7, 0xE]) ∧
    (w.toNat / 4096 = 9 → w.toNat % 16 ≠ 0) := by
  rw [decodeRows_eq_none_iff]
  simp (disch := decide) [opcodeRows2, selects_mask_F000_toNat, selects_mask_F00F_toNat, -Bool.not_eq_true, imp_and,
    and_assoc]

theorem opcodeRows3_eq_none_iff (w : Word) : decodeRows opcodeRows3 w = none ↔
    w.toNat / 4096 ∉ [0xA, 0xB, 0xC, 0xD] ∧
    (w.toNat / 4096 = 0xE → w.toNat % 256 ∉ [0x9E, 0xA1]) ∧
    (w.toNat / 4096 = 0xF → w.toNat % 256 ∉ [0x07, 0x0A, 0x15, 0x18, 0x1E, 0x29, 0x33, 0x55, 0x65]) := by
  rw [decodeRows_eq_none_iff]
  simp (disch := decide) [opcodeRows3, selects_mask_F000_toNat, selects_mask_F0FF_toNat, -Bool.not_eq_true, imp_and,
    and_assoc]

/-- The last nibbles that no row of the words 0x8xyn has. -/
theorem illegalAluNibble_iff : ∀ n < 16,
    n ∉ [0x0, 0x1, 0x2, 0x3, 0x4, 0x5, 0x6, 0x7, 0xE] ↔ n ∈ [0x8, 0x9, 0xA, 0xB, 0xC, 0xD, 0xF] := by
  decide

/-- The table decodes nothing where none of its three parts does. -/
theorem decodeWord_eq_none_iff (w : Word) : decodeWord w = none ↔
    decodeRows opcodeRows1 w = none ∧ decodeRows opcodeRows2 w = none ∧ decodeRows opcodeRows3 w = none := by
  simp only [decodeWord, opcodeTable, decodeRows_eq_none_iff, List.forall_mem_append, and_assoc]

/-- Settles O3: what the three parts of the table leave over, by the first nibble of the word. -/
theorem illegalWordsAreTheFiveGroups : Obligations.IllegalWordsAreTheFiveGroups := by
  intro w
  rw [decodeWord_eq_none_iff, opcodeRows1_eq_none_iff, opcodeRows2_eq_none_iff, opcodeRows3_eq_none_iff,
    illegalAluNibble_iff _ (Nat.mod_lt _ (by decide))]
  have hop : w.toNat / 4096 < 16 := by omega
  generalize w.toNat / 4096 = op at hop ⊢
  interval_cases op <;> simp

/-! ## The cycle on an illegal word (R66, R76) -/

/-- A cycle that fetches an illegal word reports it and clears `jump`. -/
theorem Machine.cycle_undecodable {s : Machine.State} {w : Word} (hb : s.blocked = .notBlocked)
    (hfetch : Machine.fetch s.pc.toNat s = some w) (hdecode : decodeWord w = none) :
    Machine.cycle s = .fault (.invalidInstruction w s.clearJump) := by
  rw [Machine.cycle_notBlocked s hb, Machine.fetchDecodeExecute_undecodable s w hfetch hdecode]
  rfl

/-- Settles O7: the fault carries the word and the state the cycle started from, with `jump` cleared. -/
theorem undecodableWordRaises : Obligations.UndecodableWordRaises := by
  intro s w hb hfetch hdecode
  exact ⟨s.clearJump, Machine.cycle_undecodable hb hfetch hdecode, Machine.clearJump_unchanged s, rfl⟩

end Sys2Proof
end

/-! # The sequencer family (40_sequencer.md): the cycle, the host's calls, timers, key events and outputs -/

section
namespace Sys2Proof

/-! ## The decoder on two bytes and on a table word (R60) -/

/-- What the decoder reads from two bytes and more is what their word decodes to, with the rest left. -/
theorem decode_cons_cons_eq_ok_iff (hi lo : Byte) (rest rest' : List Byte) (i : Instr) :
    decode (hi :: lo :: rest) = .ok (i, rest') ↔ decodeWord (wordOfBytes hi lo) = some i ∧ rest = rest' := by
  rw [decode]
  cases decodeWord (wordOfBytes hi lo) <;> simp

/-- A table word of 16 bits decodes as the word it is. -/
theorem decodeTableWord_16 (w : Nat) : decodeTableWord 16 w = decodeWord (BitVec.ofNat 16 (w % 2 ^ 16)) := by
  rw [decodeTableWord, ← List.append_nil (bytesOfWord _), decode_bytesOfWord]
  cases decodeWord (BitVec.ofNat 16 (w % 2 ^ 16)) <;> rfl

namespace Machine

/-! ## A cycle that runs an instruction (R73, R75, R76) -/

/-- A cycle that fetches an instruction executes it and ends. -/
theorem cycle_runs {s : State} {w : Word} {i : Instr} (hb : s.blocked = .notBlocked)
    (hfetch : fetch s.pc.toNat s = some w) (hdecode : decodeWord w = some i) : cycle s = finishCycle (exec i s) := by
  rw [cycle_notBlocked s hb, fetchDecodeExecute_runs s w i hfetch hdecode]

/-- An instruction that requests no jump ends its cycle 2 further, or 4 further if it is a skip; the sums are exact wherever an
instruction can be fetched (R75). -/
theorem exec_endCycle_pc {i : Instr} {s u : State} (hjump : s.jump = false) (hnojump : requestsJump i = false)
    (hpc : s.pc.toNat + 1 < 4096) (h : exec i s = .next u) :
    u.endCycle.pc.toNat = s.pc.toNat + 2 ∨ (isSkip i = true ∧ u.endCycle.pc.toNat = s.pc.toNat + 4) := by
  have hnext : (s.pc + instrBytes).toNat = s.pc.toNat + 2 := add_instrBytes_toNat (by omega)
  obtain ⟨hpc', -, hj⟩ | ⟨hskip, rfl⟩ | ⟨hreq, -⟩ := exec_control (.inl h)
  · rw [State.endCycle_of_not_jump u (hj.trans hjump), State.clearJump_pc, State.advancePc_pc, hpc']
    exact .inl hnext
  · rw [State.endCycle_of_not_jump s.advancePc hjump, State.clearJump_pc, State.advancePc_pc, State.advancePc_pc,
      add_instrBytes_toNat (by omega), hnext]
    exact .inr ⟨hskip, rfl⟩
  · rw [hnojump] at hreq
    exact absurd hreq Bool.false_ne_true

/-- Settles O9: the end of a successful cycle clears `jump`, and a fetched instruction lies below 0xFFF. -/
theorem cycleAdvancesByTwoOrFour : Obligations.CycleAdvancesByTwoOrFour := by
  intro s t w i hb hjump hfetch hdecode hcycle
  rw [transact_cycle, cycle_runs hb hfetch hdecode] at hcycle
  obtain ⟨u, hexec, rfl⟩ := (finishCycle_next_iff _ _).mp hcycle
  refine ⟨u.endCycle_jump, fun hnojump => ?_⟩
  obtain ⟨-, hhigh⟩ := fetch_some_range hfetch
  have hpc := exec_endCycle_pc hjump hnojump hhigh hexec
  exact ⟨hpc, by omega⟩

/-- Settles O5: the decoder reads the fetched word, and the end of the cycle is the advance by 2 unless `jump` is set. -/
theorem stepRunsTheDecodedInstruction : Obligations.StepRunsTheDecodedInstruction := by
  refine ⟨fun s i hb hlow hhigh hdecode _ => ?_, step_of_noCalls, fun s calls h => step_of_call s .cycle calls h⟩
  obtain ⟨hword, -⟩ := (decode_cons_cons_eq_ok_iff ..).mp hdecode
  rw [transact_cycle, cycle_runs hb (fetch_ok _ s hlow hhigh) hword]
  cases exec i s with
  | next u =>
    refine congrArg Host.Outcome.next ?_
    cases hj : u.jump with
    | true => exact u.endCycle_of_jump hj
    | false => exact u.endCycle_of_not_jump hj
  | fault f => rfl
  | refused r => rfl

/-- Settles O8: a blocked cycle answers its state, and a step without a listed call is a cycle. -/
theorem blockedCycleChangesNothing : Obligations.BlockedCycleChangesNothing := fun s x hb =>
  ⟨cycle_blocked s x hb, fun hcalls => (step_of_noCalls s hcalls).trans (cycle_blocked s x hb)⟩

/-- Settles O12, by the two cases of the list of calls. -/
theorem stepTakesTheNextHostCall : Obligations.StepTakesTheNextHostCall := fun _ c cs =>
  ⟨step_of_call _ c cs rfl, step_of_noCalls _ rfl⟩

/-! ## The instruction placed for the next step (log 4) -/

/-- The two bytes of a word, stored where they can be fetched, are fetched as that word (R50, R52). -/
theorem fetch_storeBlock_bytesOfWord (s : State) (a : Nat) (w : Word) (hm : Memory.wf s.mem) (ha : fetchable a = true) :
    fetch a (s.storeBlock a (bytesOfWord w)) = some w := by
  have hhi : (s.storeBlock a (bytesOfWord w)).byteAt a = w.extractLsb' 8 8 :=
    byteAt_storeBlock s a 0 (bytesOfWord w) hm Nat.zero_lt_two
  have hlo : (s.storeBlock a (bytesOfWord w)).byteAt (a + 1) = w.extractLsb' 0 8 :=
    byteAt_storeBlock s a 1 (bytesOfWord w) hm Nat.one_lt_two
  rw [fetch, if_pos ha, hhi, hlo, wordOfBytes_bytesOfWord]

/-- Settles O52: the placed word is fetched where `withFetchWord` puts `pc`, and both its bytes lie inside memory. -/
theorem placedWordRunsNext : Obligations.PlacedWordRunsNext := by
  intro s w i hm hdecode
  have hplace := placeAddress_fetchable s
  rw [decodeTableWord_16] at hdecode
  refine ⟨?_, ?_⟩
  · rw [step_of_noCalls _ rfl]
    exact cycle_runs rfl (fetch_storeBlock_bytesOfWord s _ _ hm hplace) hdecode
  · obtain ⟨-, hhigh⟩ := (fetchable_iff _).mp hplace
    exact storeBlock_wf s _ _ hm hhigh

/-! ## A failed cycle (R76, R131) -/

/-- A skip on a key that fails has changed nothing (R114). -/
theorem skipOnKey_fault {x : RegId} {k : KeyState} {s : State} {f : Fault} (h : skipOnKey x k s = .fault f) :
    f.after = s := by
  unfold skipOnKey at h
  split at h
  · exact leaves_fault (.inr ⟨f, h, rfl⟩)
  · nomatch h

/-- Every instruction that fails, but the two block transfers, has changed nothing (R76, R131). -/
theorem exec_fault_after {i : Instr} {s : State} {f : Fault} (h : exec i s = .fault f) (hdump : ∀ x, i ≠ .dumpRegs x)
    (hload : ∀ x, i ≠ .loadRegs x) : f.after = s := by
  have hleaves : Leaves (exec i s) f.after := .inr ⟨f, h, rfl⟩
  cases i with
  | skp | sknp => exact skipOnKey_fault h
  | ret | call | drw =>
    simp only [exec, execRet, execCall, execDrw] at h
    split at h
    · cases h; rfl
    · nomatch h
  | ldB x =>
    obtain hs | ⟨hlow, hhigh, -⟩ := execLdB_leaves x s _ hleaves
    · exact hs
    · rw [exec, execLdB_ok x s hlow hhigh] at h
      nomatch h
  | dumpRegs x => exact absurd rfl (hdump x)
  | loadRegs x => exact absurd rfl (hload x)
  | _ => nomatch h

/-- No failing instruction moves `pc`: the block transfers never write it, and the others have changed nothing (R76). -/
theorem exec_fault_pc {i : Instr} {s : State} {f : Fault} (h : exec i s = .fault f) : f.after.pc = s.pc := by
  have hleaves : Leaves (exec i s) f.after := .inr ⟨f, h, rfl⟩
  cases i with
  | dumpRegs | loadRegs => exact exec_keptBut hleaves .pc (by simp [partsWritten])
  | _ => rw [exec_fault_after h nofun nofun]

/-- Nor does a failing fetch or decode. -/
theorem fetchDecodeExecute_fault_pc {s : State} {f : Fault} (h : fetchDecodeExecute s = .fault f) :
    f.after.pc = s.pc := by
  obtain ⟨-, hrun⟩ | ⟨w, -, -, hrun⟩ | ⟨w, i, -, -, hrun⟩ := fetchDecodeExecute_cases s <;> rw [hrun] at h
  · cases h; rfl
  · cases h; rfl
  · exact exec_fault_pc h

/-- Fx55 writes nothing if I is protected, and otherwise bytes from I to the end of memory alone (R125). -/
theorem execDumpRegs_bytes {x : RegId} {s t : State} (h : Leaves (execDumpRegs x s) t) :
    (s.I.toNat < 0x200 → t = s) ∧ BytesUnchangedOutside s.I.toNat (4096 - s.I.toNat) s t := by
  obtain ⟨-, rfl⟩ | ⟨hlow, rfl⟩ := execDumpRegs_leaves x s t h
  · exact ⟨fun _ => rfl, fun _ _ => rfl⟩
  · refine ⟨fun hprot => absurd hprot (Nat.not_lt.mpr hlow), fun b hb => byteAt_storeBlock_other s _ b _ ?_⟩
    simp only [List.length_map, List.length_take, memSize]
    omega

/-- Settles O10: a fault of a cycle is Execute's, or the fetch's or the decoder's, with `jump` cleared. -/
theorem failedCycleIsPreciseInPc : Obligations.FailedCycleIsPreciseInPc := by
  intro s f hb hcycle
  rw [transact_cycle, cycle_notBlocked s hb] at hcycle
  obtain ⟨g, hrun, rfl⟩ := (finishCycle_fault_iff _ _).mp hcycle
  rw [Fault.after_mapAfter]
  refine ⟨fetchDecodeExecute_fault_pc hrun, rfl, fun w i hfetch hdecode => ?_⟩
  have hexec : exec i s = .fault g := (fetchDecodeExecute_runs s w i hfetch hdecode).symm.trans hrun
  have hleaves : Leaves (exec i s) g.after := .inr ⟨g, hexec, rfl⟩
  have hframe : UnchangedBut (partsWritten i ++ [.jump]) s g.after.clearJump :=
    (exec_keptBut hleaves).unchanged.trans (clearJump_unchanged _)
  refine ⟨?_, ?_, fun hdump hload => ?_⟩
  · rintro x rfl
    obtain ⟨hprot, hbytes⟩ := execDumpRegs_bytes hleaves
    exact ⟨hframe, fun hlow a => by rw [State.clearJump_byteAt, hprot hlow], hbytes⟩
  · rintro x rfl
    obtain ⟨-, hregs⟩ := execLoadRegs_leaves x s _ hleaves
    exact ⟨hframe, fun r hr => (hregs r).trans (if_neg fun hload => Nat.not_lt.mpr hr hload.2)⟩
  · rw [exec_fault_after hexec hdump hload]
    exact clearJump_unchanged s

/-! ## Timers, key events and outputs (R77 to R83) -/

theorem updateTimers_blocked {s : State} {x : RegId} (h : s.blocked = .waitingKey x) : updateTimers s = s := by
  simp [updateTimers, h]

theorem updateTimers_notBlocked {s : State} (h : s.blocked = .notBlocked) :
    updateTimers s = (s.setDT (tick s.DT)).setST (tick s.ST) := by
  simp [updateTimers, h]

theorem updateTimers_keptBut (s : State) : KeptBut [.delay, .sound] s (updateTimers s) := by
  unfold updateTimers
  split <;> simp [keptBut_iff]

/-- A timer counts down by 1, floored at 0 (R77). -/
theorem tick_toNat (t : Byte) : (tick t).toNat = t.toNat - 1 := by
  unfold tick
  split
  · subst t; rfl
  · bv_omega

/-- Settles O13, by the two values of `blocked`; each timer ticks. -/
theorem updateTimersCountsDown : Obligations.UpdateTimersCountsDown := by
  refine fun s => ⟨fun x hb => congrArg Host.Outcome.next (updateTimers_blocked hb), fun hb => ?_⟩
  refine ⟨updateTimers s, rfl, ?_, ?_, (updateTimers_keptBut s).unchanged⟩ <;> rw [updateTimers_notBlocked hb]
  · exact tick_toNat s.DT
  · exact tick_toNat s.ST

theorem setKey_keptBut (k : KeyId) (v : KeyState) (s : State) : KeptBut [.keys] s (s.setKey k v) := by
  simp [keptBut_iff]

theorem keyUp_notBlocked {s : State} (k : KeyId) (h : s.blocked = .notBlocked) : keyUp k s = s.setKey k .released := by
  simp [keyUp, h]

theorem keyUp_blocked {s : State} {x : RegId} (k : KeyId) (h : s.blocked = .waitingKey x) :
    keyUp k s = ((s.setKey k .released).setV x (keyCode k)).setBlocked .notBlocked := by
  simp [keyUp, h]

theorem keyUp_keptBut (k : KeyId) (s : State) : KeptBut [.keys, .regs, .blocked] s (keyUp k s) := by
  unfold keyUp
  split <;> simp [keptBut_iff]

/-- A release writes the latch, blocked or not (R79). -/
theorem keyUp_getKey (k j : KeyId) (s : State) : (keyUp k s).getKey j = if k = j then .released else s.getKey j := by
  unfold keyUp
  split <;> simp

/-- No wait survives a release (R79). -/
theorem keyUp_clears_wait (k : KeyId) (s : State) : (keyUp k s).blocked = .notBlocked := by
  unfold keyUp
  split
  · assumption
  · rfl

theorem keyCode_toNat (k : KeyId) : (keyCode k).toNat = k.val := by
  rw [keyCode, BitVec.toNat_ofNat]
  omega

/-- Settles O14: both events write the latch, and the case of a release while blocked is the resolution of the wait. -/
theorem keyEvents : Obligations.KeyEvents := by
  refine fun k s => ⟨⟨keyDown k s, rfl, ?_, fun j hj => ?_, (setKey_keptBut k .pressed s).unchanged⟩,
    ⟨keyUp k s, rfl, ?_, fun j hj => ?_, keyUp_clears_wait k s, fun hb => ?_, fun x hb => ⟨?_, fun r hr => ?_,
      (keyUp_keptBut k s).unchanged⟩⟩⟩
  · exact (State.getKey_setKey ..).trans (if_pos rfl)
  · exact (State.getKey_setKey ..).trans (if_neg hj.symm)
  · exact (keyUp_getKey ..).trans (if_pos rfl)
  · exact (keyUp_getKey ..).trans (if_neg hj.symm)
  · rw [keyUp_notBlocked k hb]
    exact (setKey_keptBut k .released s).unchanged
  · simp [keyUp_blocked k hb, keyCode_toNat]
  · have hne : x ≠ r := fun h => hr (List.mem_singleton.mpr h.symm)
    simp [keyUp_blocked k hb, hne]

theorem setDirty_keptBut (b : Bool) (s : State) : KeptBut [.dirty] s (s.setDirty b) := by
  simp [keptBut_iff]

/-- `is_blocked()` answers whether a wait is on (R80). -/
theorem isBlocked_eq (s : State) : isBlocked s = decide (s.blocked ≠ .notBlocked) := by
  unfold isBlocked
  split <;> simp [*]

/-- Settles O16: every output but `is_blocked()` reads its field, and `clear_dirty()` writes one. -/
theorem outputsReadTheState : Obligations.OutputsReadTheState := fun s _ _ =>
  ⟨⟨congrArg Reply.bit (isBlocked_eq s), rfl⟩, ⟨rfl, rfl⟩, ⟨rfl, rfl⟩, ⟨rfl, rfl⟩,
    ⟨s.setDirty false, rfl, rfl, (setDirty_keptBut false s).unchanged⟩⟩

/-! ## The model's own fields over every transaction (logs 2 and 3) -/

theorem hostCalls_not_mem_partsWritten (i : Instr) : Part.hostCalls ∉ partsWritten i := by
  cases i <;> simp [partsWritten]

/-- Execute counts a draw for Cxkk and for no other instruction (R98). -/
theorem exec_draws {i : Instr} {s t : State} (h : Leaves (exec i s) t) :
    t.draws = s.draws ∨ (t.draws = s.draws + 1 ∧ ∃ x kk, i = .rnd x kk) := by
  cases i with
  | rnd x kk =>
    obtain rfl := leaves_next h
    exact .inr ⟨rfl, x, kk, rfl⟩
  | _ => exact .inl (exec_keptBut h .draws (by simp [partsWritten]))

/-- A cycle keeps the host's calls, and draws only where it runs Cxkk (R74, R98). -/
theorem cycle_ownFields {s t : State} (h : Leaves (cycle s) t) :
    t.hostCalls = s.hostCalls ∧
    (t.draws = s.draws ∨
      (t.draws = s.draws + 1 ∧ s.blocked = .notBlocked ∧
        ∃ w x kk, fetch s.pc.toNat s = some w ∧ decodeWord w = some (.rnd x kk))) := by
  obtain ⟨-, -, rfl⟩ | ⟨-, -, rfl⟩ | ⟨-, -, -, -, rfl⟩ | ⟨w, i, u, hb, hfetch, hdecode, hend⟩ := cycle_leaves h
  · exact ⟨rfl, .inl rfl⟩
  · exact ⟨rfl, .inl rfl⟩
  · exact ⟨rfl, .inl rfl⟩
  · have hu : Leaves (exec i s) u ∧ t.hostCalls = u.hostCalls ∧ t.draws = u.draws := by
      obtain ⟨hexec, rfl⟩ | ⟨f, hexec, rfl, rfl⟩ := hend
      · exact ⟨.inl hexec, u.endCycle_hostCalls, u.endCycle_draws⟩
      · exact ⟨.inr ⟨f, hexec, rfl⟩, rfl, rfl⟩
    obtain ⟨hexec, hcalls, hdraws⟩ := hu
    rw [hcalls, hdraws]
    refine ⟨exec_keptBut hexec .hostCalls (hostCalls_not_mem_partsWritten i), (exec_draws hexec).imp_right ?_⟩
    rintro ⟨hdraw, x, kk, rfl⟩
    exact ⟨hdraw, hb, w, x, kk, hfetch, hdecode⟩

/-- No program load, failed or not, touches the model's own fields (R144, R145). -/
theorem loadProgramToAddress_ownFields {bytes : List Byte} {a : Nat} {s t : State}
    (h : Leaves (loadProgramToAddress bytes a s) t) : t.hostCalls = s.hostCalls ∧ t.draws = s.draws := by
  have hfont := installFont_unchanged (resetCore s)
  have hcalls : (installFont (resetCore s)).hostCalls = s.hostCalls := hfont .hostCalls (by simp)
  have hdraws : (installFont (resetCore s)).draws = s.draws := hfont .draws (by simp)
  obtain rfl | ⟨-, -, rfl⟩ := loadProgramToAddress_leaves h <;> exact ⟨hcalls, hdraws⟩

/-- Settles O53: the frames of the transactions, and for a cycle the draw of Cxkk. -/
theorem transactionsLeaveTheModelsOwnFields : Obligations.TransactionsLeaveTheModelsOwnFields := by
  intro c s t h
  cases c with
  | cycle =>
    obtain ⟨hcalls, hdraws⟩ := cycle_ownFields h
    exact ⟨hcalls, hdraws.imp_right fun ⟨hdraw, hrnd⟩ => ⟨hdraw, rfl, hrnd⟩⟩
  | loadProgram | loadProgramToAddress => exact (loadProgramToAddress_ownFields h).imp_right .inl
  | updateTimers =>
    rw [leaves_next h]
    exact ⟨updateTimers_keptBut s .hostCalls (by simp), .inl (updateTimers_keptBut s .draws (by simp))⟩
  | keyUp k =>
    rw [leaves_next h]
    exact ⟨keyUp_keptBut k s .hostCalls (by simp), .inl (keyUp_keptBut k s .draws (by simp))⟩
  | keyDown | isBlocked | readPixel | readDirty | clearDirty | readSoundTimer =>
    rw [leaves_next h]
    exact ⟨rfl, .inl rfl⟩

end Machine
end Sys2Proof
end

/-! # The ALU family (41_alu.md): loads, logic, additions, subtractions, shifts and random -/

section
namespace Sys2Proof

/-- A well-formed instruction and its word, both ways (R62, R64). -/
theorem Machine.isWordOf_encodeWord {i : Instr} (hwf : i.wf = true) : Machine.IsWordOf (encodeWord i) i :=
  ⟨rfl, decodeWord_encodeWord i hwf⟩

namespace Machine

/-! ## What the three ways of writing a result leave (R18, R86, D12)

Each rule says what the destination and VF hold, and that no other register and no other part of the state changed. The
values are given as the rules of 41_alu.md give them, as numbers. -/

/-- A result alone. -/
theorem setV_post (s : State) (x : RegId) (b : Byte) :
    (s.setV x b).getV x = b ∧ RegsUnchangedBut [x] s (s.setV x b) ∧ UnchangedBut [.regs] s (s.setV x b) := by
  refine ⟨by simp, fun r hr => ?_, KeptBut.unchanged (by simp [keptBut_iff])⟩
  exact (s.getV_setV x r b).trans (if_neg fun hx => hr (by simp [hx]))

/-- A result and then the flag: with x = F the flag stays. -/
theorem resultThenFlag_post (s : State) (x : RegId) {result flag : Byte} {n : Nat} {f : Byte}
    (hresult : result.toNat = n) (hflag : flag = f) :
    (x ≠ 0xF → ((s.resultThenFlag x result flag).getV x).toNat = n) ∧
    (s.resultThenFlag x result flag).getV 0xF = f ∧
    RegsUnchangedBut [x, 0xF] s (s.resultThenFlag x result flag) ∧
    UnchangedBut [.regs] s (s.resultThenFlag x result flag) := by
  subst hresult hflag
  refine ⟨fun hx => ?_, by simp [flagReg], fun r hr => ?_, KeptBut.unchanged (by simp [keptBut_iff])⟩
  · simp [flagReg, hx.symm]
  · obtain ⟨hx, hF⟩ : r ≠ x ∧ r ≠ 0xF := by simpa using hr
    simp [flagReg, hx.symm, hF.symm]

/-- The flag and then a result: with x = F the result stays. -/
theorem flagThenResult_post (s : State) (x : RegId) {flag result : Byte} {n f : Nat}
    (hresult : result.toNat = n) (hflag : flag.toNat = f) :
    ((s.flagThenResult x flag result).getV x).toNat = n ∧
    (x ≠ 0xF → ((s.flagThenResult x flag result).getV 0xF).toNat = f) ∧
    RegsUnchangedBut [x, 0xF] s (s.flagThenResult x flag result) ∧
    UnchangedBut [.regs] s (s.flagThenResult x flag result) := by
  subst hresult hflag
  refine ⟨by simp, fun hx => ?_, fun r hr => ?_, KeptBut.unchanged (by simp [keptBut_iff])⟩
  · simp [flagReg, hx]
  · obtain ⟨hx, hF⟩ : r ≠ x ∧ r ≠ 0xF := by simpa using hr
    simp [flagReg, hx.symm, hF.symm]

/-! ## The results and the flags as numbers (R86, R94 to R97) -/

theorem carryFlag_eq (a b : Byte) : carryFlag a b = if 255 < a.toNat + b.toNat then 1 else 0 := by
  simp [carryFlag, bool01]

theorem noBorrowFlag_eq (a b : Byte) : noBorrowFlag a b = if b.toNat ≤ a.toNat then 1 else 0 := by
  simp [noBorrowFlag, bool01]

/-- The difference mod 256. -/
theorem sub_toNat (a b : Byte) : (a - b).toNat = (a.toNat + 256 - b.toNat) % 256 := by
  rw [BitVec.toNat_sub]
  omega

theorem shiftRight_one_toNat (v : Byte) : (v >>> 1).toNat = v.toNat / 2 := by
  rw [BitVec.toNat_ushiftRight, Nat.shiftRight_eq_div_pow, pow_one]

theorem shiftLeft_one_toNat (v : Byte) : (v <<< 1).toNat = v.toNat * 2 % 256 := by
  rw [BitVec.toNat_shiftLeft, Nat.shiftLeft_eq, pow_one]

theorem shiftedOutRight_toNat (v : Byte) : (shiftedOutRight v).toNat = v.toNat % 2 :=
  (BitVec.toNat_and v 1).trans (Nat.and_one_is_mod _)

theorem shiftedOutLeft_toNat (v : Byte) : (shiftedOutLeft v).toNat = v.toNat / 128 := by
  rw [shiftedOutLeft, BitVec.toNat_ushiftRight, Nat.shiftRight_eq_div_pow]

/-! ## The family's statements (R87 to R98) -/

/-- 7xkk writes VF (D11). -/
theorem exec_addImm (x : RegId) (kk : Byte) (s : State) :
    exec (.addImm x kk) s = .next (s.resultThenFlag x (s.getV x + kk) (carryFlag (s.getV x) kk)) := rfl

/-- Settles O26: each addition writes the sum and then the carry. -/
theorem additionsSetTheCarry : Obligations.AdditionsSetTheCarry := fun x y kk s =>
  ⟨⟨isWordOf_encodeWord (i := .addImm x kk) rfl, _, exec_addImm x kk s,
      resultThenFlag_post s x (BitVec.toNat_add _ _) (carryFlag_eq _ _)⟩,
    ⟨isWordOf_encodeWord (i := .addReg x y) rfl, _, rfl,
      resultThenFlag_post s x (BitVec.toNat_add _ _) (carryFlag_eq _ _)⟩⟩

/-- Settles O27: each subtraction writes the difference and then no-borrow. -/
theorem subtractionsSetNoBorrow : Obligations.SubtractionsSetNoBorrow := fun x y s =>
  ⟨⟨isWordOf_encodeWord (i := .subReg x y) rfl, _, rfl,
      resultThenFlag_post s x (sub_toNat _ _) (noBorrowFlag_eq _ _)⟩,
    ⟨isWordOf_encodeWord (i := .subnReg x y) rfl, _, rfl,
      resultThenFlag_post s x (sub_toNat _ _) (noBorrowFlag_eq _ _)⟩⟩

/-- 8xy6 and 8xyE shift Vy (D10). -/
theorem exec_shrReg (x y : RegId) (s : State) :
    exec (.shrReg x y) s = .next (s.flagThenResult x (shiftedOutRight (s.getV y)) (s.getV y >>> 1)) := rfl

theorem exec_shlReg (x y : RegId) (s : State) :
    exec (.shlReg x y) s = .next (s.flagThenResult x (shiftedOutLeft (s.getV y)) (s.getV y <<< 1)) := rfl

/-- Settles O28: each shift writes the bit shifted out and then the shifted value. -/
theorem shiftsSetTheBitShiftedOut : Obligations.ShiftsSetTheBitShiftedOut := fun x y s =>
  ⟨⟨isWordOf_encodeWord (i := .shrReg x y) rfl, _, exec_shrReg x y s,
      flagThenResult_post s x (shiftRight_one_toNat _) (shiftedOutRight_toNat _)⟩,
    ⟨isWordOf_encodeWord (i := .shlReg x y) rfl, _, exec_shlReg x y s,
      flagThenResult_post s x (shiftLeft_one_toNat _) (shiftedOutLeft_toNat _)⟩⟩

/-- Settles O24: each load writes its destination alone. -/
theorem registerLoads : Obligations.RegisterLoads := fun x y kk s =>
  ⟨⟨isWordOf_encodeWord (i := .ldImm x kk) rfl, _, rfl, setV_post s x kk⟩,
    ⟨isWordOf_encodeWord (i := .ldReg x y) rfl, _, rfl, setV_post s x (s.getV y)⟩⟩

/-- Settles O25: each logic operation writes its destination alone. -/
theorem logicOperations : Obligations.LogicOperations := fun x y s =>
  ⟨⟨isWordOf_encodeWord (i := .orReg x y) rfl, _, rfl, setV_post s x (s.getV x ||| s.getV y)⟩,
    ⟨isWordOf_encodeWord (i := .andReg x y) rfl, _, rfl, setV_post s x (s.getV x &&& s.getV y)⟩,
    ⟨isWordOf_encodeWord (i := .xorReg x y) rfl, _, rfl, setV_post s x (s.getV x ^^^ s.getV y)⟩⟩

/-- A masked byte has no bit outside its mask. -/
theorem and_and_not_self (b mask : Byte) : b &&& mask &&& ~~~mask = 0 := by
  rw [BitVec.and_assoc, BitVec.and_not_self]
  exact BitVec.and_zero

/-- Settles O29: the draw is counted, and then its byte under the mask is written to the destination alone. -/
theorem randomIsMasked : Obligations.RandomIsMasked := by
  intro x kk s
  obtain ⟨hx, hregs, -⟩ := setV_post s.drawByte.2 x (Config.freeDraw s.draws &&& kk)
  refine ⟨isWordOf_encodeWord (i := .rnd x kk) rfl, _, rfl, hx, ?_, rfl, hregs,
    (exec_keptBut (i := .rnd x kk) (.inl rfl)).unchanged⟩
  exact (congrArg (· &&& ~~~kk) hx).trans (and_and_not_self _ kk)

end Machine
end Sys2Proof
end

/-! # The control-flow family (42_control_flow.md): SYS, jumps, call, return and the skips on values -/

section
namespace Sys2Proof.Machine

/-! ## SYS (R65, R100) -/

/-- SYS at any address but those of CLS and RET is an instruction of the encoding. -/
theorem wf_sys {nnn : Addr12} (hcls : nnn ≠ 0x0E0) (hret : nnn ≠ 0x0EE) : (Instr.sys nnn).wf = true := by
  rw [Instr.wf, Bool.and_eq_true, bne_iff_ne, bne_iff_ne]
  exact ⟨hcls, hret⟩

/-- The end of a cycle that requested no jump moves `pc` alone (R75). -/
theorem endCycle_unchanged {s : State} (hjump : s.jump = false) : UnchangedBut [.pc] s s.endCycle :=
  KeptBut.unchanged (by simp [keptBut_iff, hjump])

/-- Settles O30: Execute answers its own state, so the cycle of SYS is the advance at its end. -/
theorem sysHasNoEffect : Obligations.SysHasNoEffect := by
  refine ⟨fun nnn hcls hret => isWordOf_encodeWord (wf_sys hcls hret), by decide, fun _ _ => rfl, ?_⟩
  intro w nnn s hb hjump hfetch hdecode
  obtain ⟨-, hhigh⟩ := fetch_some_range hfetch
  refine ⟨s.endCycle, cycle_runs hb hfetch hdecode, ?_, endCycle_unchanged hjump⟩
  rw [State.endCycle_of_not_jump s hjump, State.clearJump_pc, State.advancePc_pc, add_instrBytes_toNat (by omega)]

/-! ## Call and return (R101, R103) -/

/-- RET on an empty stack (R101). -/
theorem exec_ret_nil {s : State} (h : s.stack = []) : exec .ret s = .fault (.stackUnderflow s) := by
  change execRet s = _
  rw [execRet, h]
  rfl

/-- RET on a stack with a return address (R101). -/
theorem exec_ret_cons {s : State} {a : Word} {rest : List Word} (h : s.stack = a :: rest) :
    exec .ret s = .next ((s.setStack rest).jumpTo a) := by
  change execRet s = _
  rw [execRet, h]

/-- CALL with no room on the stack (R103). -/
theorem exec_call_full {s : State} (nnn : Addr12) (h : stackDepth ≤ s.stack.length) :
    exec (.call nnn) s = .fault (.stackOverflow s) :=
  if_pos (decide_eq_true h)

/-- CALL with room on the stack (R103). -/
theorem exec_call_room {s : State} (nnn : Addr12) (h : s.stack.length < stackDepth) :
    exec (.call nnn) s = .next ((s.push s.nextPc).jumpTo (targetOf nnn)) :=
  if_neg (by simpa [State.stackFull] using h)

/-- Settles O31, by the two forms of the stack. -/
theorem returnPops : Obligations.ReturnPops := by
  refine ⟨isWordOf_encodeWord (i := .ret) rfl, fun s => ⟨exec_ret_nil, fun a rest hstack => ?_⟩⟩
  have hexec := exec_ret_cons hstack
  exact ⟨_, hexec, rfl, rfl, rfl, (exec_keptBut (.inl hexec)).unchanged⟩

/-- Settles O33, by whether the stack has room. -/
theorem callPushes : Obligations.CallPushes := by
  refine fun nnn s => ⟨isWordOf_encodeWord (i := .call nnn) rfl, fun hfull => exec_call_full nnn hfull.ge, fun hroom => ?_⟩
  have hexec := exec_call_room nnn hroom
  exact ⟨_, hexec, rfl, targetOf_toNat nnn, rfl, (exec_keptBut (.inl hexec)).unchanged⟩

/-- A CALL whose cycle succeeds leaves the address after itself on top of the stack of before (R103). -/
theorem cycle_call_stack {s t : State} {w : Word} {nnn : Addr12} (hb : s.blocked = .notBlocked)
    (hfetch : fetch s.pc.toNat s = some w) (hdecode : decodeWord w = some (.call nnn)) (h : cycle s = .next t) :
    t.stack = s.nextPc :: s.stack := by
  rw [cycle_runs hb hfetch hdecode, finishCycle_next_iff] at h
  obtain ⟨u, hexec, rfl⟩ := h
  rw [State.endCycle_stack]
  rcases Nat.lt_or_ge s.stack.length stackDepth with hroom | hfull
  · rw [exec_call_room nnn hroom] at hexec
    rw [← Host.Outcome.next.inj hexec]
    rfl
  · rw [exec_call_full nnn hfull] at hexec
    cases hexec

/-- A RET with an address on the stack ends its cycle at that address, which it popped: the jump keeps the sequencer from
advancing past it (R75, R101). -/
theorem cycle_ret {u : State} {a : Word} {rest : List Word} (hb : u.blocked = .notBlocked)
    (hfetch : fetch u.pc.toNat u = some 0x00EE) (hstack : u.stack = a :: rest) :
    cycle u = .next ((u.setStack rest).jumpTo a).clearJump := by
  rw [cycle_runs hb hfetch (isWordOf_encodeWord (i := .ret) rfl).2, exec_ret_cons hstack]
  exact congrArg Host.Outcome.next (State.endCycle_of_jump _ rfl)

/-- Settles O34: the return pops the address the CALL pushed, which is exact because the CALL was fetched below 0xFFF. -/
theorem returnResumesAfterTheCall : Obligations.ReturnResumesAfterTheCall := by
  intro s t u w nnn hb hfetch hdecode hcall hub hufetch hstack
  have hret := cycle_ret hub hufetch (hstack.trans (cycle_call_stack hb hfetch hdecode hcall))
  obtain ⟨-, hhigh⟩ := fetch_some_range hfetch
  exact ⟨_, hret, add_instrBytes_toNat (by omega), rfl, KeptBut.unchanged (by simp [keptBut_iff])⟩

/-! ## Jumps (R102, R108) -/

/-- Settles O32: each jump writes its target to `pc`. -/
theorem jumpsSetPc : Obligations.JumpsSetPc := fun nnn s =>
  ⟨⟨isWordOf_encodeWord (i := .jp nnn) rfl, _, rfl, targetOf_toNat nnn, rfl,
      (exec_keptBut (i := .jp nnn) (.inl rfl)).unchanged⟩,
    ⟨isWordOf_encodeWord (i := .jpV0 nnn) rfl, _, rfl, indexedTarget_toNat nnn s, rfl,
      (exec_keptBut (i := .jpV0 nnn) (.inl rfl)).unchanged⟩⟩

/-! ## Skips on values (R104 to R107) -/

/-- A skip answers the advance if its condition holds and its own state if not, and moves `pc` alone. -/
theorem skipIf_post (c : Bool) (s : State) :
    ∃ t, skipIf c s = .next t ∧ t.pc = (if c then s.pc + 2 else s.pc) ∧ UnchangedBut [.pc] s t := by
  refine ⟨_, rfl, ?_⟩
  cases c with
  | false => exact ⟨rfl, UnchangedBut.refl _ s⟩
  | true => exact ⟨rfl, KeptBut.unchanged (by simp [keptBut_iff])⟩

/-- A skip on equal bytes. -/
theorem skipIf_beq_post (a b : Byte) (s : State) :
    ∃ t, skipIf (a == b) s = .next t ∧ t.pc = (if a = b then s.pc + 2 else s.pc) ∧ UnchangedBut [.pc] s t := by
  simpa only [beq_iff_eq] using skipIf_post (a == b) s

/-- A skip on different bytes. -/
theorem skipIf_bne_post (a b : Byte) (s : State) :
    ∃ t, skipIf (a != b) s = .next t ∧ t.pc = (if a = b then s.pc else s.pc + 2) ∧ UnchangedBut [.pc] s t := by
  simpa only [bne_iff_ne, ne_eq, ite_not] using skipIf_post (a != b) s

/-- Settles O35: two of the skips compare for equality and two for difference. -/
theorem skipsOnValues : Obligations.SkipsOnValues := fun x y kk s =>
  ⟨⟨isWordOf_encodeWord (i := .seImm x kk) rfl, skipIf_beq_post (s.getV x) kk s⟩,
    ⟨isWordOf_encodeWord (i := .sneImm x kk) rfl, skipIf_bne_post (s.getV x) kk s⟩,
    ⟨isWordOf_encodeWord (i := .seReg x y) rfl, skipIf_beq_post (s.getV x) (s.getV y) s⟩,
    ⟨isWordOf_encodeWord (i := .sneReg x y) rfl, skipIf_bne_post (s.getV x) (s.getV y) s⟩⟩

end Sys2Proof.Machine
end

/-! # The display, input and timer family (43_display_input_timers.md): the screen, the keys and the timers -/

section
namespace Sys2Proof

/-! ## The clear screen (R110, R112) -/

/-- Settles O36: the cleared screen is Off at every pixel. (`Machine.clearScreen` is the model's own name for that
screen.) -/
theorem clearScreen : Obligations.ClearScreen :=
  ⟨Machine.isWordOf_encodeWord (i := .cls) rfl, fun s =>
    ⟨s.clear, rfl, s.pixel_clear, rfl, (Machine.exec_keptBut (i := .cls) (.inl rfl)).unchanged⟩⟩

namespace Machine

/-! ## The draw as a sprite and its place on the screen (R111, R113)

A draw reads Vx, Vy, I and the bytes from I on; everything it does is said of the sprite and the place these give. Two draws of
one sprite at one place can then be compared without a second look at the loops. -/

/-- What a draw puts on the screen: the screen column and row of each sprite column and row, and the pixels. -/
structure Sprite where
  col : Nat → Fin Config.screenW
  row : Nat → Fin Config.screenH
  pixel : Nat → Nat → Pixel
  height : Nat

/-- The sprite that DRW draws, at its place. -/
def spriteOf (x y : RegId) (n : Nibble) (s : State) : Sprite where
  col c := wrapX ((s.getV x).toNat + c)
  row r := wrapY ((s.getV y).toNat + r)
  pixel r c := spritePixel (s.byteAt (s.I.toNat + r)) c
  height := n.toNat

/-- The sprite covers the screen pixel. -/
def Sprite.Covers (p : Sprite) (u : Fin Config.screenW) (v : Fin Config.screenH) : Prop :=
  ∃ r c, r < p.height ∧ c < 8 ∧ p.col c = u ∧ p.row r = v

/-- An On pixel of the sprite lies over an On pixel of the screen. -/
def Sprite.Collides (p : Sprite) (s : State) : Prop :=
  ∃ r c, r < p.height ∧ c < 8 ∧ s.pixel (p.col c) (p.row r) = .on ∧ p.pixel r c = .on

/-- The screen and VF after the sprite was drawn. -/
structure Sprite.Drawn (p : Sprite) (s t : State) : Prop where
  covered : ∀ r c, r < p.height → c < 8 →
    t.pixel (p.col c) (p.row r) = (s.pixel (p.col c) (p.row r)).xor (p.pixel r c)
  uncovered : ∀ u v, ¬ p.Covers u v → t.pixel u v = s.pixel u v
  flag_cases : t.getV 0xF = 0 ∨ t.getV 0xF = 1
  flag_eq_one_iff : t.getV 0xF = 1 ↔ p.Collides s
  dirty : t.dirty = if p.height = 0 then s.dirty else true

theorem collisionFlag_cases (c : Bool) : collisionFlag c = 0 ∨ collisionFlag c = 1 := by cases c <;> decide

theorem collisionFlag_eq_one_iff (c : Bool) : collisionFlag c = 1 ↔ c = true := by cases c <;> decide

theorem getV_flag_setFlag (s : State) (f : Byte) : (s.setFlag f).getV 0xF = f := by simp [flagReg]

/-- DRW past the end of memory (R113). -/
theorem exec_drw_pastEnd {x y : RegId} {n : Nibble} {s : State} (h : memSize < s.I.toNat + n.toNat) :
    exec (.drw x y n) s = .fault (.invalidMemoryAccess s.I.toNat s) := by
  change execDrw x y n s = _
  rw [execDrw, spriteRead_none _ _ _ h]
  rfl

/-- DRW within memory draws its sprite and then writes VF (R113). -/
theorem exec_drw_draws {x y : RegId} {n : Nibble} {s : State} (h : s.I.toNat + n.toNat ≤ memSize) :
    ∃ t, exec (.drw x y n) s = .next t ∧ (spriteOf x y n s).Drawn s t := by
  change ∃ t, execDrw x y n s = _ ∧ _
  rw [execDrw, spriteRead_ok _ _ _ h]
  obtain ⟨-, hdirty, hcovered, huncovered, hcollision⟩ := drawRows_spec (s.getV x).toNat
    (Memory.readBlock s.mem s.I.toNat n.toNat) (s.getV y).toNat (s, false) (by rw [Memory.readBlock_length]; omega)
  simp only [Memory.readBlock_length, Memory.readBlock_getElem] at hcovered huncovered hcollision
  have hnoRows : Memory.readBlock s.mem s.I.toNat n.toNat = [] ↔ n.toNat = 0 := by
    rw [← List.length_eq_zero_iff, Memory.readBlock_length]
  simp only [hnoRows] at hdirty
  simp only [exists_prop, Bool.false_eq_true, false_or] at hcollision
  refine ⟨_, rfl, hcovered, fun u v huv => ?_, ?_, ?_, hdirty⟩
  · exact huncovered u v fun r c hr hc hat => huv ⟨r, c, hr, hc, hat⟩
  · rw [getV_flag_setFlag]
    exact collisionFlag_cases _
  · rw [getV_flag_setFlag, collisionFlag_eq_one_iff]
    exact hcollision

/-- A draw that succeeds is within memory, and so has drawn its sprite. -/
theorem drawn_of_exec_drw {x y : RegId} {n : Nibble} {s t : State} (h : exec (.drw x y n) s = .next t) :
    s.I.toNat + n.toNat ≤ memSize ∧ (spriteOf x y n s).Drawn s t := by
  by_cases hend : memSize < s.I.toNat + n.toNat
  · rw [exec_drw_pastEnd hend] at h
    cases h
  · obtain ⟨u, hexec, hdrawn⟩ := exec_drw_draws (x := x) (y := y) (not_lt.mp hend)
    rw [h] at hexec
    cases hexec
    exact ⟨not_lt.mp hend, hdrawn⟩

/-! ## One draw (R113) -/

/-- XOR is On where exactly one of the two pixels is. -/
theorem Pixel.xor_eq_on_iff (p q : Pixel) : p.xor q = .on ↔ ¬(p = .on ↔ q = .on) := by
  cases p <;> cases q <;> decide

theorem Pixel.ofBit_eq_on_iff (b : Bool) : Pixel.ofBit b = .on ↔ b = true := by cases b <;> decide

/-- Settles O37: past the end of memory the rows cannot be read, and otherwise the sprite of Vx, Vy and I is drawn. -/
theorem drawSprite : Obligations.DrawSprite := by
  intro x y n s px py bit
  have hbit (r c : Nat) : (spriteOf x y n s).pixel r c = .on ↔ bit r c = true := Pixel.ofBit_eq_on_iff _
  refine ⟨isWordOf_encodeWord (i := .drw x y n) rfl, exec_drw_pastEnd, fun hfits => ?_⟩
  obtain ⟨t, hexec, hdrawn⟩ := exec_drw_draws (x := x) (y := y) hfits
  refine ⟨t, hexec, fun r c hr hc => ?_, fun u v huv => hdrawn.uncovered u v ?_, hdrawn.flag_cases, ?_, ?_,
    fun r hr => exec_getV (.inl hexec) fun hF => hr (List.mem_singleton.mpr hF), (exec_keptBut (.inl hexec)).unchanged⟩
  · rw [← hbit, ← Pixel.xor_eq_on_iff]
    exact iff_of_eq (congrArg (· = Pixel.on) (hdrawn.covered r c hr hc))
  · rintro ⟨r, c, hr, hc, hat⟩
    exact huv r c hr hc hat
  · simp only [← hbit]
    exact hdrawn.flag_eq_one_iff
  · have hn : (spriteOf x y n s).height = 0 ↔ n = 0 := (BitVec.toNat_eq (y := 0)).symm
    rw [hdrawn.dirty]
    simp only [hn]

/-! ## The same sprite twice (R113) -/

/-- The second draw of a sprite takes back the first. -/
theorem Sprite.Drawn.twice {p : Sprite} {s t u : State} (h : p.Drawn s t) (h' : p.Drawn t u)
    (a : Fin Config.screenW) (b : Fin Config.screenH) : u.pixel a b = s.pixel a b := by
  by_cases hab : p.Covers a b
  · obtain ⟨r, c, hr, hc, rfl, rfl⟩ := hab
    rw [h'.covered r c hr hc, h.covered r c hr hc, Pixel.xor_xor_self]
  · rw [h'.uncovered a b hab, h.uncovered a b hab]

/-- On a clear screen a sprite meets no On pixel. -/
theorem Sprite.Drawn.flag_of_clear {p : Sprite} {s t : State} (h : p.Drawn s t) (hclear : ∀ a b, s.pixel a b = .off) :
    t.getV 0xF = 0 := by
  refine h.flag_cases.resolve_right fun hflag => ?_
  obtain ⟨r, c, -, -, hon, -⟩ := h.flag_eq_one_iff.mp hflag
  rw [hclear] at hon
  cases hon

/-- Drawn on a clear screen, a sprite lies on its own pixels: the second draw collides at each On one. -/
theorem Sprite.Drawn.collides_of_clear {p : Sprite} {s t : State} (h : p.Drawn s t)
    (hclear : ∀ a b, s.pixel a b = .off) :
    p.Collides t ↔ ∃ r c, r < p.height ∧ c < 8 ∧ p.pixel r c = .on := by
  refine exists_congr fun r => exists_congr fun c => and_congr_right fun hr => and_congr_right fun hc => ?_
  rw [h.covered r c hr hc, hclear, Pixel.off_xor, and_self]

/-- A draw whose operands are not VF changes nothing the next draw of it reads but the screen. -/
theorem spriteOf_eq_after_drw {x y : RegId} {n : Nibble} {s t : State} (hx : x ≠ 0xF) (hy : y ≠ 0xF)
    (h : exec (.drw x y n) s = .next t) : spriteOf x y n t = spriteOf x y n s := by
  have hkept := exec_keptBut (.inl h)
  have hI : t.I = s.I := hkept .index (by simp [partsWritten])
  have hbyte : t.byteAt = s.byteAt := funext (hkept .memory (by simp [partsWritten])).same
  have hVx : t.getV x = s.getV x := exec_getV (.inl h) hx
  have hVy : t.getV y = s.getV y := exec_getV (.inl h) hy
  rw [spriteOf, spriteOf, hI, hbyte, hVx, hVy]

/-- Settles O38: both draws are of one sprite at one place. -/
theorem drawingTwiceErases : Obligations.DrawingTwiceErases := by
  intro x y n s t u hx hy hfirst hsecond
  obtain ⟨-, hdrawn⟩ := drawn_of_exec_drw hfirst
  obtain ⟨-, hagain⟩ := drawn_of_exec_drw hsecond
  rw [spriteOf_eq_after_drw hx hy hfirst] at hagain
  refine ⟨hdrawn.twice hagain, fun hclear => ⟨hdrawn.flag_of_clear hclear, ?_⟩⟩
  rw [hagain.flag_eq_one_iff, hdrawn.collides_of_clear hclear]
  simp only [spriteOf, spritePixel, Pixel.ofBit_eq_on_iff, spriteBit]

/-! ## The same sprite one screen further (R113) -/

/-- What a draw leaves is fixed by the sprite, the screen and `dirty`. -/
theorem Sprite.Drawn.unique {p : Sprite} {s t t' : State} (h : p.Drawn s t) (h' : p.Drawn s t') :
    (∀ a b, t'.pixel a b = t.pixel a b) ∧ t'.getV 0xF = t.getV 0xF ∧ t'.dirty = t.dirty := by
  refine ⟨fun a b => ?_, ?_, h'.dirty.trans h.dirty.symm⟩
  · by_cases hab : p.Covers a b
    · obtain ⟨r, c, hr, hc, rfl, rfl⟩ := hab
      rw [h'.covered r c hr hc, h.covered r c hr hc]
    · rw [h'.uncovered a b hab, h.uncovered a b hab]
  · have hiff : t'.getV 0xF = 1 ↔ t.getV 0xF = 1 := h'.flag_eq_one_iff.trans h.flag_eq_one_iff.symm
    obtain hzero | hone := h.flag_cases
    · exact (h'.flag_cases.resolve_right fun hone' => by simp [hiff.mp hone'] at hzero).trans hzero.symm
    · exact (hiff.mpr hone).trans hone.symm

/-- A data register written in between does not matter to what a sprite's draw leaves. -/
theorem Sprite.Drawn.of_setV {p : Sprite} {s t : State} {x : RegId} {b : Byte} (h : p.Drawn (s.setV x b) t) :
    p.Drawn s t := ⟨h.covered, h.uncovered, h.flag_cases, h.flag_eq_one_iff, h.dirty⟩

theorem wrapX_add_64 (v : Byte) (c : Nat) : wrapX ((v + 64).toNat + c) = wrapX (v.toNat + c) := by
  rw [wrapX_eq_iff]; bv_omega

theorem wrapY_add_64 (v : Byte) (r : Nat) : wrapY ((v + 64).toNat + r) = wrapY (v.toNat + r) := by
  rw [wrapY_eq_iff]; bv_omega

theorem wrapY_add_32 (v : Byte) (r : Nat) : wrapY ((v + 32).toNat + r) = wrapY (v.toNat + r) := by
  rw [wrapY_eq_iff]; bv_omega

/-- Vx further by a screen's width leaves the place, also where Vx is the row too: 64 is two screens' heights. -/
theorem spriteOf_setV_col (x y : RegId) (n : Nibble) (s : State) :
    spriteOf x y n (s.setV x (s.getV x + 64)) = spriteOf x y n s := by
  by_cases hxy : x = y
  · subst hxy
    simp only [spriteOf, State.getV_setV, if_true, wrapX_add_64, wrapY_add_64]
    rfl
  · simp only [spriteOf, State.getV_setV, if_true, if_neg hxy, wrapX_add_64]
    rfl

/-- Vy further by a screen's height leaves the place where it is the row alone. -/
theorem spriteOf_setV_row {x y : RegId} (hxy : x ≠ y) (n : Nibble) (s : State) :
    spriteOf x y n (s.setV y (s.getV y + 32)) = spriteOf x y n s := by
  simp only [spriteOf, State.getV_setV, if_true, if_neg hxy.symm, wrapY_add_32]
  rfl

/-- A draw whose sprite and place a register write does not change is the draw of before the write. -/
theorem exec_drw_setV {x y r : RegId} {n : Nibble} {b : Byte} {s t : State} (h : exec (.drw x y n) s = .next t)
    (hsame : spriteOf x y n (s.setV r b) = spriteOf x y n s) :
    ∃ t', exec (.drw x y n) (s.setV r b) = .next t' ∧ (∀ p q, t'.pixel p q = t.pixel p q) ∧
      t'.getV 0xF = t.getV 0xF ∧ t'.dirty = t.dirty := by
  obtain ⟨hfits, hdrawn⟩ := drawn_of_exec_drw h
  obtain ⟨t', hexec, hdrawn'⟩ := exec_drw_draws (x := x) (y := y) (s := s.setV r b) hfits
  rw [hsame] at hdrawn'
  exact ⟨t', hexec, hdrawn.unique hdrawn'.of_setV⟩

/-- Settles O39: both writes leave the sprite and its place. -/
theorem drawingWrapsAround : Obligations.DrawingWrapsAround := fun x y n s _ h =>
  ⟨exec_drw_setV h (spriteOf_setV_col x y n s), fun hxy => exec_drw_setV h (spriteOf_setV_row hxy n s)⟩

/-! ## Skips on keys (R114 to R116) -/

theorem keyFromValue_none {v : Byte} (h : 0xF < v.toNat) : keyFromValue v = none := dif_neg (by omega)

theorem keyFromValue_some {v : Byte} {k : KeyId} (h : v.toNat = k.val) : keyFromValue v = some k := by
  rw [keyFromValue, dif_pos (by omega), Option.some_inj, Fin.ext_iff]
  exact h

/-- A skip on a register that holds no key fails with its value (R114). -/
theorem skipOnKey_noKey {x : RegId} {s : State} (wanted : KeyState) (h : 0xF < (s.getV x).toNat) :
    skipOnKey x wanted s = .fault (.invalidKey (s.getV x) s) := by
  rw [skipOnKey, keyFromValue_none h]
  rfl

/-- A skip on a register that holds a key is a skip on that key's state (R114). -/
theorem skipOnKey_post {x : RegId} {s : State} {k : KeyId} (wanted : KeyState) (h : (s.getV x).toNat = k.val) :
    ∃ t, skipOnKey x wanted s = .next t ∧ t.pc = (if s.getKey k = wanted then s.pc + 2 else s.pc) ∧
      UnchangedBut [.pc] s t := by
  rw [skipOnKey, keyFromValue_some h]
  simpa only [beq_iff_eq] using skipIf_post (s.getKey k == wanted) s

/-- Settles O40: the two skips differ in the state of the key they want. -/
theorem skipsOnKeys : Obligations.SkipsOnKeys := fun x _ =>
  ⟨isWordOf_encodeWord (i := .skp x) rfl, isWordOf_encodeWord (i := .sknp x) rfl,
    fun h => ⟨skipOnKey_noKey .pressed h, skipOnKey_noKey .released h⟩,
    fun _ h => ⟨skipOnKey_post .pressed h, skipOnKey_post .released h⟩⟩

/-! ## Timers and the wait for a key (R117 to R120) -/

/-- Settles O41: each timer instruction writes its destination alone. -/
theorem timerInstructions : Obligations.TimerInstructions := fun x s =>
  ⟨⟨isWordOf_encodeWord (i := .ldVxDT x) rfl, _, rfl, setV_post s x s.DT⟩,
    ⟨isWordOf_encodeWord (i := .ldDTVx x) rfl, _, rfl, rfl, (exec_keptBut (i := .ldDTVx x) (.inl rfl)).unchanged⟩,
    ⟨isWordOf_encodeWord (i := .ldSTVx x) rfl, _, rfl, rfl, (exec_keptBut (i := .ldSTVx x) (.inl rfl)).unchanged⟩⟩

/-- The release of a key delivers its code to the register that waits and ends the wait (R79). -/
theorem keyUp_delivers {s : State} {x : RegId} (k : KeyId) (h : s.blocked = .waitingKey x) :
    ((keyUp k s).getV x).toNat = k.val ∧ (keyUp k s).blocked = .notBlocked ∧ (keyUp k s).pc = s.pc := by
  refine ⟨?_, keyUp_clears_wait k s, keyUp_keptBut k s .pc (by simp)⟩
  simp [keyUp_blocked k h, keyCode_toNat]

/-- Settles O42: the cycle of Fx0A ends with the advance, blocked, and any release then resolves the wait. -/
theorem waitForKey : Obligations.WaitForKey := by
  refine fun x s => ⟨⟨isWordOf_encodeWord (i := .ldVxK x) rfl, _, rfl, rfl,
    (exec_keptBut (i := .ldVxK x) (.inl rfl)).unchanged⟩, fun w hb hjump hfetch hdecode => ?_⟩
  obtain ⟨-, hhigh⟩ := fetch_some_range hfetch
  have hblocked : (s.setBlocked (.waitingKey x)).endCycle.blocked = .waitingKey x := State.endCycle_blocked _
  refine ⟨_, cycle_runs hb hfetch hdecode, hblocked, ?_, KeptBut.unchanged (by simp [keptBut_iff, hjump]),
    fun k => ⟨_, rfl, keyUp_delivers k hblocked⟩⟩
  rw [(s.setBlocked (.waitingKey x)).endCycle_of_not_jump hjump, State.clearJump_pc, State.advancePc_pc]
  have hbelow : s.pc.toNat < 0xFFFE := by omega
  exact add_instrBytes_toNat hbelow

end Machine
end Sys2Proof
end

/-! # The index and memory family (44_index_memory.md): the address register, BCD and the block transfers -/

section
namespace Sys2Proof.Machine

/-! ## The address register (R121 to R123) -/

/-- nnn as a value of I is nnn, zero-extended (R61). -/
theorem indexOf_toNat (nnn : Addr12) : (indexOf nnn).toNat = nnn.toNat :=
  BitVec.toNat_setWidth_of_le (by decide)

/-- The sum of Fx1E is taken mod 2^64 (R122). -/
theorem addReg_zeroExtend_toNat (a : AddrReg) (v : Byte) :
    (a + v.zeroExtend 64).toNat = (a.toNat + v.toNat) % 2 ^ 64 := by
  rw [BitVec.toNat_add, BitVec.toNat_setWidth_of_le (by decide)]

/-- The font address of Fx29 is exact for every byte (R123). -/
theorem fontAddress_toNat (v : Byte) : (fontAddress v).toNat = 5 * v.toNat := by
  rw [fontAddress, fontBase, fontStride, BitVec.toNat_ofNat]
  omega

/-- Settles O43: each of the three writes I alone. -/
theorem addressRegisterWrites : Obligations.AddressRegisterWrites := fun x nnn s =>
  ⟨⟨isWordOf_encodeWord (i := .ldI nnn) rfl, _, rfl, indexOf_toNat nnn,
      (exec_keptBut (i := .ldI nnn) (.inl rfl)).unchanged⟩,
    ⟨isWordOf_encodeWord (i := .addI x) rfl, _, rfl, addReg_zeroExtend_toNat s.I (s.getV x),
      (exec_keptBut (i := .addI x) (.inl rfl)).unchanged⟩,
    ⟨isWordOf_encodeWord (i := .ldF x) rfl, _, rfl, fontAddress_toNat (s.getV x),
      (exec_keptBut (i := .ldF x) (.inl rfl)).unchanged⟩⟩

/-! ## BCD (R124) -/

/-- The digits of a byte are exact: each fits a byte. -/
theorem bcdDigits_toNat (v : Byte) :
    (bcdDigits v).1.toNat = v.toNat / 100 ∧ (bcdDigits v).2.1.toNat = v.toNat / 10 % 10 ∧
    (bcdDigits v).2.2.toNat = v.toNat % 10 := by
  simp only [bcdDigits, BitVec.toNat_ofNat]
  omega

/-- Three stored bytes, read back. -/
theorem byteAt_storeBlock_three (s : State) (a : Nat) (b c d : Byte) (hm : Memory.wf s.mem) :
    (s.storeBlock a [b, c, d]).byteAt a = b ∧ (s.storeBlock a [b, c, d]).byteAt (a + 1) = c ∧
    (s.storeBlock a [b, c, d]).byteAt (a + 2) = d :=
  ⟨byteAt_storeBlock s a 0 _ hm (by simp), byteAt_storeBlock s a 1 _ hm (by simp),
    byteAt_storeBlock s a 2 _ hm (by simp)⟩

/-- Settles O44: past the end, protected, or three digits stored. -/
theorem bcdStore : Obligations.BcdStore := by
  intro x s hm
  refine ⟨isWordOf_encodeWord (i := .ldB x) rfl, execLdB_pastEnd x s, execLdB_protected x s, fun hend hlow => ?_⟩
  have hexec : exec (.ldB x) s = .next _ := execLdB_ok x s hlow hend
  obtain ⟨hhundreds, htens, hones⟩ := bcdDigits_toNat (s.getV x)
  obtain ⟨h0, h1, h2⟩ := byteAt_storeBlock_three s s.I.toNat (bcdDigits (s.getV x)).1 (bcdDigits (s.getV x)).2.1
    (bcdDigits (s.getV x)).2.2 hm
  exact ⟨_, hexec, (congrArg BitVec.toNat h0).trans hhundreds, (congrArg BitVec.toNat h1).trans htens,
    (congrArg BitVec.toNat h2).trans hones, fun b hb => byteAt_storeBlock_other s _ b _ hb,
    (exec_keptBut (.inl hexec)).unchanged⟩

/-! ## The block transfers (R125, R126) -/

/-- Whether Fx55 succeeds or fails, from an unprotected address it has stored every register of its range whose address
exists (R125). -/
theorem execDumpRegs_stored {x r : RegId} {s t : State} (hm : Memory.wf s.mem) (hlow : unprotectedStart ≤ s.I.toNat)
    (h : Leaves (execDumpRegs x s) t) (hr : r ≤ x) (hend : s.I.toNat + r.val < memSize) :
    t.byteAt (s.I.toNat + r.val) = s.getV r := by
  obtain ⟨hprot, -⟩ | ⟨-, rfl⟩ := execDumpRegs_leaves x s t h
  · exact absurd hprot (Nat.not_lt.mpr hlow)
  · exact byteAt_dumped x s hm r _ (by omega) hr

/-- A register whose address lies in memory where that of Vx does not is of the range before Vx. -/
theorem le_of_address_lt {x r : RegId} {a : Nat} (hx : memSize ≤ a + x.val) (hr : a + r.val < memSize) : r ≤ x :=
  Fin.le_def.mpr (by omega)

/-- Where the address of Vx lies in memory, so do those of the registers before it. -/
theorem address_lt_of_le {x r : RegId} {a : Nat} (hx : a + x.val < memSize) (hr : r ≤ x) : a + r.val < memSize :=
  (Nat.add_le_add_left hr a).trans_lt hx

/-- Settles O45: the two outcomes from an unprotected address store alike, as far as memory goes. -/
theorem blockDump : Obligations.BlockDump := by
  intro x s hm
  refine ⟨isWordOf_encodeWord (i := .dumpRegs x) rfl, execDumpRegs_protected x s, fun hlow hend => ?_,
    fun hlow hend => ?_⟩
  · have hexec := execDumpRegs_pastEnd x s hlow hend
    have hleaves : Leaves (exec (.dumpRegs x) s) _ := .inr ⟨_, hexec, rfl⟩
    obtain ⟨-, hbytes⟩ := execDumpRegs_bytes hleaves
    exact ⟨_, hexec, fun r hr => execDumpRegs_stored hm hlow hleaves (le_of_address_lt hend hr) hr, hbytes,
      (exec_keptBut hleaves).unchanged⟩
  · have hexec := execDumpRegs_ok x s hlow hend
    have hleaves : Leaves (exec (.dumpRegs x) s) _ := .inl hexec
    obtain ⟨hframe, -, -, hbytes⟩ := instructionsWriteOnlyTheirOwn _ _ _ hleaves
    exact ⟨_, hexec, fun r hr => execDumpRegs_stored hm hlow hleaves hr (address_lt_of_le hend hr),
      hbytes x rfl, hframe⟩

/-- Fx65 past the end of memory reports the first address that does not exist (R126). -/
theorem execLoadRegs_pastEnd {x : RegId} {s : State} (h : memSize ≤ s.I.toNat + x.val) :
    ∃ t, execLoadRegs x s = .fault (.invalidMemoryAccess (max s.I.toNat memSize) t) := by
  obtain ⟨t, -, -, hrun⟩ := loadLoop_spec s.I.toNat (regsThrough x) 0 s (by rw [regsThrough_val, regsThrough_length])
  refine ⟨t, hrun.trans (if_neg ?_)⟩
  rintro (hfits | hnil)
  · rw [regsThrough_length] at hfits
    omega
  · simpa [hnil] using regsThrough_length x

/-- Settles O46: both outcomes load every register of the range whose address exists. -/
theorem blockLoad : Obligations.BlockLoad := by
  refine fun x s => ⟨isWordOf_encodeWord (i := .loadRegs x) rfl, fun hend => ?_, fun hend => ?_⟩
  · obtain ⟨t, hexec⟩ := execLoadRegs_pastEnd hend
    have hleaves : Leaves (exec (.loadRegs x) s) t := .inr ⟨_, hexec, rfl⟩
    refine ⟨t, hexec, fun r => ?_, (exec_keptBut hleaves).unchanged⟩
    obtain ⟨-, hregs⟩ := execLoadRegs_leaves x s t hleaves
    rw [hregs r]
    exact if_congr (and_iff_right_of_imp (le_of_address_lt hend)) rfl rfl
  · obtain ⟨t, hexec, -, hregs⟩ := execLoadRegs_ok x s hend
    exact ⟨t, hexec, hregs, (exec_keptBut (i := .loadRegs x) (.inl hexec)).unchanged⟩

/-- Fx55 succeeds only where every address of its range lies in the program region (R125). -/
theorem execDumpRegs_next_range {x : RegId} {s t : State} (h : execDumpRegs x s = .next t) :
    unprotectedStart ≤ s.I.toNat ∧ s.I.toNat + x.val < memSize := by
  by_contra hout
  by_cases hlow : unprotectedStart ≤ s.I.toNat
  · simp [execDumpRegs_pastEnd x s hlow (by omega)] at h
  · simp [execDumpRegs_protected x s (by omega)] at h

/-- Settles O47: the load reads at each address of the range the register that the dump stored there. -/
theorem dumpThenLoadRestores : Obligations.DumpThenLoadRestores := by
  intro x s t u hm hdump hbytes hI
  obtain ⟨hlow, hend⟩ := execDumpRegs_next_range hdump
  obtain ⟨v, hload, -, hregs⟩ := execLoadRegs_ok x u (hI ▸ hend)
  refine ⟨v, hload, fun r hr => ?_⟩
  rw [hregs r, if_pos hr, hI, hbytes]
  exact execDumpRegs_stored hm hlow (.inl hdump) hr (address_lt_of_le hend hr)

end Sys2Proof.Machine
end

/-! # The exceptions family (60_exceptions.md): which errors there are, who raises them, and what a further call does -/

section
namespace Sys2Proof.Machine

/-! ## The errors of Execute (R127) -/

/-- The errors of Execute, one constructor for each way an instruction can fail: the instruction, the condition, the error with
its info, and the state it leaves (R101, R103, R113 to R116, R124 to R126). -/
inductive ExecError : Instr → State → Fault → Prop
  | ret {s : State} (hstack : s.stack = []) : ExecError .ret s (.stackUnderflow s)
  | call {nnn : Addr12} {s : State} (hfull : stackDepth ≤ s.stack.length) : ExecError (.call nnn) s (.stackOverflow s)
  | skp {x : RegId} {s : State} (hkey : 0xF < (s.getV x).toNat) : ExecError (.skp x) s (.invalidKey (s.getV x) s)
  | sknp {x : RegId} {s : State} (hkey : 0xF < (s.getV x).toNat) : ExecError (.sknp x) s (.invalidKey (s.getV x) s)
  | drw {x y : RegId} {n : Nibble} {s : State} (hend : memSize < s.I.toNat + n.toNat) :
    ExecError (.drw x y n) s (.invalidMemoryAccess s.I.toNat s)
  | ldBPastEnd {x : RegId} {s : State} (hend : memSize ≤ s.I.toNat + 2) :
    ExecError (.ldB x) s (.invalidMemoryAccess (s.I.toNat + 2) s)
  | ldBProtected {x : RegId} {s : State} (hend : s.I.toNat + 2 < memSize) (hlow : s.I.toNat < unprotectedStart) :
    ExecError (.ldB x) s (.invalidMemoryAccess s.I.toNat s)
  | dumpProtected {x : RegId} {s : State} (hlow : s.I.toNat < unprotectedStart) :
    ExecError (.dumpRegs x) s (.invalidMemoryAccess s.I.toNat s)
  | dumpPastEnd {x : RegId} {s : State} (hlow : unprotectedStart ≤ s.I.toNat) (hend : memSize ≤ s.I.toNat + x.val) :
    ExecError (.dumpRegs x) s (.invalidMemoryAccess (max s.I.toNat memSize)
      (s.storeBlock s.I.toNat (((regsThrough x).take (memSize - s.I.toNat)).map s.getV)))
  | loadPastEnd {x : RegId} {s t : State} (hend : memSize ≤ s.I.toNat + x.val) (ht : SameButV s t) :
    ExecError (.loadRegs x) s (.invalidMemoryAccess (max s.I.toNat memSize) t)

/-- A skip on a key answers a next state unless the register holds no key (R114). -/
theorem skipOnKey_next_or_noKey (x : RegId) (wanted : KeyState) (s : State) :
    (∃ t, skipOnKey x wanted s = .next t) ∨
    (0xF < (s.getV x).toNat ∧ skipOnKey x wanted s = .fault (.invalidKey (s.getV x) s)) := by
  rcases Nat.lt_or_ge 0xF (s.getV x).toNat with hkey | hkey
  · exact .inr ⟨hkey, skipOnKey_noKey wanted hkey⟩
  · obtain ⟨t, hskip, -⟩ := skipOnKey_post (k := ⟨(s.getV x).toNat, Nat.lt_succ_of_le hkey⟩) wanted rfl
    exact .inl ⟨t, hskip⟩

/-- Execute answers a next state or fails with one of its errors; it refuses nothing. -/
theorem exec_next_or_error (i : Instr) (s : State) :
    (∃ t, exec i s = .next t) ∨ ∃ f, exec i s = .fault f ∧ ExecError i s f := by
  cases i with
  | ret =>
    cases hstack : s.stack with
    | nil => exact .inr ⟨_, exec_ret_nil hstack, .ret hstack⟩
    | cons a rest => exact .inl ⟨_, exec_ret_cons hstack⟩
  | call nnn =>
    rcases Nat.lt_or_ge s.stack.length stackDepth with hroom | hfull
    · exact .inl ⟨_, exec_call_room nnn hroom⟩
    · exact .inr ⟨_, exec_call_full nnn hfull, .call hfull⟩
  | skp x => exact (skipOnKey_next_or_noKey x .pressed s).imp_right fun ⟨hkey, hexec⟩ => ⟨_, hexec, .skp hkey⟩
  | sknp x => exact (skipOnKey_next_or_noKey x .released s).imp_right fun ⟨hkey, hexec⟩ => ⟨_, hexec, .sknp hkey⟩
  | drw x y n =>
    rcases Nat.lt_or_ge memSize (s.I.toNat + n.toNat) with hend | hfits
    · exact .inr ⟨_, exec_drw_pastEnd hend, .drw hend⟩
    · obtain ⟨t, hexec, -⟩ := exec_drw_draws (x := x) (y := y) hfits
      exact .inl ⟨t, hexec⟩
  | ldB x =>
    rcases Nat.lt_or_ge (s.I.toNat + 2) memSize with hfits | hend
    · rcases Nat.lt_or_ge s.I.toNat unprotectedStart with hlow | hlow
      · exact .inr ⟨_, execLdB_protected x s hfits hlow, .ldBProtected hfits hlow⟩
      · exact .inl ⟨_, execLdB_ok x s hlow hfits⟩
    · exact .inr ⟨_, execLdB_pastEnd x s hend, .ldBPastEnd hend⟩
  | dumpRegs x =>
    rcases Nat.lt_or_ge s.I.toNat unprotectedStart with hlow | hlow
    · exact .inr ⟨_, execDumpRegs_protected x s hlow, .dumpProtected hlow⟩
    · rcases Nat.lt_or_ge (s.I.toNat + x.val) memSize with hfits | hend
      · exact .inl ⟨_, execDumpRegs_ok x s hlow hfits⟩
      · exact .inr ⟨_, execDumpRegs_pastEnd x s hlow hend, .dumpPastEnd hlow hend⟩
  | loadRegs x =>
    rcases Nat.lt_or_ge (s.I.toNat + x.val) memSize with hfits | hend
    · obtain ⟨t, hexec, -⟩ := execLoadRegs_ok x s hfits
      exact .inl ⟨t, hexec⟩
    · obtain ⟨t, hexec⟩ := execLoadRegs_pastEnd hend
      obtain ⟨ht, -⟩ := execLoadRegs_leaves x s t (.inr ⟨_, hexec, rfl⟩)
      exact .inr ⟨_, hexec, .loadPastEnd hend ht⟩
  | _ => exact .inl ⟨_, rfl⟩

theorem exec_fault_error {i : Instr} {s : State} {f : Fault} (h : exec i s = .fault f) : ExecError i s f := by
  obtain ⟨t, hexec⟩ | ⟨g, hexec, herror⟩ := exec_next_or_error i s <;> rw [hexec] at h
  · cases h
  · exact Host.Outcome.fault.inj h ▸ herror

/-- Settles O21: the errors of Execute, one by one; the first address past memory in a block transfer is I or 4096. -/
theorem errorKindsOfInstructions : Obligations.ErrorKindsOfInstructions := by
  intro i s f h
  cases exec_fault_error h with
  | ret => exact .inl ⟨rfl, rfl⟩
  | call => exact .inr (.inl ⟨rfl, _, rfl⟩)
  | skp hkey => exact .inr (.inr (.inl ⟨_, rfl, hkey, .inl rfl⟩))
  | sknp hkey => exact .inr (.inr (.inl ⟨_, rfl, hkey, .inr rfl⟩))
  | drw hend => exact .inr (.inr (.inr ⟨_, _, rfl, .inl ⟨_, _, _, rfl, rfl, hend, rfl⟩⟩))
  | ldBPastEnd hend => exact .inr (.inr (.inr ⟨_, _, rfl, .inr (.inl ⟨_, rfl, .inl ⟨rfl, hend⟩, rfl⟩)⟩))
  | ldBProtected _ hlow => exact .inr (.inr (.inr ⟨_, _, rfl, .inr (.inl ⟨_, rfl, .inr ⟨rfl, hlow⟩, rfl⟩)⟩))
  | dumpProtected hlow =>
    exact .inr (.inr (.inr ⟨_, _, rfl, .inr (.inr (.inl ⟨_, rfl, .inl hlow, le_rfl, Nat.le_add_right ..⟩))⟩))
  | dumpPastEnd _ hend =>
    exact .inr (.inr (.inr ⟨_, _, rfl, .inr (.inr (.inl
      ⟨_, rfl, .inr (le_max_right ..), le_max_left .., max_le (Nat.le_add_right ..) hend⟩))⟩))
  | loadPastEnd hend =>
    exact .inr (.inr (.inr ⟨_, _, rfl, .inr (.inr (.inr
      ⟨_, rfl, le_max_right .., le_max_left .., max_le (Nat.le_add_right ..) hend⟩))⟩))

/-! ## The errors of the transactions (R127) -/

/-- The kinds of the load, and the one that nothing raises, come from no instruction (R68, R127). -/
theorem ExecError.code_ne {i : Instr} {s : State} {f : Fault} (h : ExecError i s f) :
    f.code ≠ 4 ∧ f.code ≠ 6 ∧ f.code ≠ 7 := by
  cases h <;> simp [Fault.code]

/-- What comes before the end of a cycle answers a next state or fails, with no kind of the load's and not with
InvalidDataRegister (R68, R127). -/
theorem fetchDecodeExecute_next_or_error (s : State) :
    (∃ t, fetchDecodeExecute s = .next t) ∨
    ∃ f, fetchDecodeExecute s = .fault f ∧ f.code ≠ 4 ∧ f.code ≠ 6 ∧ f.code ≠ 7 := by
  obtain ⟨-, hrun⟩ | ⟨w, -, -, hrun⟩ | ⟨w, i, -, -, hrun⟩ := fetchDecodeExecute_cases s <;> rw [hrun]
  · exact .inr ⟨_, rfl, by simp [Fault.code]⟩
  · exact .inr ⟨_, rfl, by simp [Fault.code]⟩
  · exact (exec_next_or_error i s).imp_right fun ⟨f, hexec, herror⟩ => ⟨f, hexec, herror.code_ne⟩

/-- So does a cycle (R73, R74). -/
theorem cycle_next_or_error (s : State) :
    (∃ t, cycle s = .next t) ∨ ∃ f, cycle s = .fault f ∧ f.code ≠ 4 ∧ f.code ≠ 6 ∧ f.code ≠ 7 := by
  cases hb : s.blocked with
  | waitingKey x => exact .inl ⟨s, cycle_blocked s x hb⟩
  | notBlocked =>
    rw [cycle_notBlocked s hb]
    obtain ⟨t, hrun⟩ | ⟨f, hrun, hcode⟩ := fetchDecodeExecute_next_or_error s <;> rw [hrun]
    · exact .inl ⟨_, rfl⟩
    · exact .inr ⟨_, rfl, by simpa using hcode⟩

/-- A program load answers a next state or fails with one of its two kinds (R145). -/
theorem loadProgramToAddress_next_or_error (bytes : List Byte) (a : Nat) (s : State) :
    (∃ t, loadProgramToAddress bytes a s = .next t) ∨
    ∃ f, loadProgramToAddress bytes a s = .fault f ∧ (f.code = 6 ∨ f.code = 7) := by
  unfold loadProgramToAddress
  obtain ⟨-, hw⟩ | ⟨-, -, hw⟩ | ⟨-, -, hw⟩ := memWriteRestricted_cases a bytes (installFont (resetCore s)) <;>
    simp only [hw]
  · exact .inr ⟨_, rfl, .inl rfl⟩
  · exact .inr ⟨_, rfl, .inr rfl⟩
  · exact .inl ⟨_, rfl⟩

/-- So do both load transactions, the one to the default address included (R145). -/
theorem transact_load_next_or_error {c : Transaction} (s : State)
    (hload : (∃ bs, c = .loadProgram bs) ∨ ∃ bs a, c = .loadProgramToAddress bs a) :
    (∃ t, transact c s = .next t) ∨ ∃ f, transact c s = .fault f ∧ (f.code = 6 ∨ f.code = 7) := by
  obtain ⟨bs, rfl⟩ | ⟨bs, a, rfl⟩ := hload
  · exact loadProgramToAddress_next_or_error bs programStart s
  · exact loadProgramToAddress_next_or_error bs a s

/-- Settles O22: the cycle and the loads have errors of separate kinds, and every other transaction answers a next state. -/
theorem errorKindsOfTransactions : Obligations.ErrorKindsOfTransactions := by
  intro c s
  by_cases hload : (∃ bs, c = .loadProgram bs) ∨ ∃ bs a, c = .loadProgramToAddress bs a
  · obtain ⟨t, hrun⟩ | ⟨f, hrun, hcode⟩ := transact_load_next_or_error s hload <;> rw [hrun]
    · exact ⟨nofun, nofun⟩
    · refine ⟨?_, nofun⟩
      rintro _ ⟨⟩
      exact ⟨by omega, iff_of_true hcode hload, by omega⟩
  · cases c with
    | loadProgram | loadProgramToAddress => simp at hload
    | cycle =>
      obtain ⟨t, hcycle⟩ | ⟨f, hcycle, h4, h6, h7⟩ := cycle_next_or_error s <;> rw [transact_cycle, hcycle]
      · exact ⟨nofun, nofun⟩
      · refine ⟨?_, nofun⟩
        rintro _ ⟨⟩
        exact ⟨h4, iff_of_false (by omega) hload, fun _ => rfl⟩
    | _ => exact ⟨nofun, nofun⟩

/-! ## A further cycle after an error (R131, R132) -/

theorem KeptBut.mono {ps qs : List Part} {s t : State} (h : KeptBut ps s t) (hsub : ps ⊆ qs) : KeptBut qs s t :=
  fun p hp => h p fun hp' => hp (hsub hp')

/-- A failing instruction leaves everything as it was but registers it loaded and bytes it stored (R76, R131). -/
theorem ExecError.keptBut {i : Instr} {s : State} {f : Fault} (h : ExecError i s f) :
    KeptBut [.regs, .memory] s f.after := by
  cases h with
  | loadPastEnd _ ht => exact ht.kept.mono (by simp)
  | _ => simp [Fault.after, keptBut_iff]

/-- What an instruction fails on, the stack, I or the register of a key, is not among what it leaves changed, so it fails on
it again (R131). -/
theorem ExecError.again {i : Instr} {s : State} {f : Fault} (h : ExecError i s f) :
    ∃ g, exec i f.after.clearJump = .fault g ∧ g.code = f.code ∧ g.info = f.info := by
  cases h with
  | ret hstack => exact ⟨_, exec_ret_nil hstack, rfl, rfl⟩
  | call hfull => exact ⟨_, exec_call_full _ hfull, rfl, rfl⟩
  | skp hkey | sknp hkey => exact ⟨_, skipOnKey_noKey _ hkey, rfl, rfl⟩
  | drw hend => exact ⟨_, exec_drw_pastEnd hend, rfl, rfl⟩
  | ldBPastEnd hend => exact ⟨_, execLdB_pastEnd _ _ hend, rfl, rfl⟩
  | ldBProtected hend hlow => exact ⟨_, execLdB_protected _ _ hend hlow, rfl, rfl⟩
  | dumpProtected hlow => exact ⟨_, execDumpRegs_protected _ _ hlow, rfl, rfl⟩
  | dumpPastEnd hlow hend => exact ⟨_, execDumpRegs_pastEnd _ _ hlow hend, rfl, rfl⟩
  | @loadPastEnd _ s t hend ht =>
    have hI : t.I = s.I := ht.kept .index (by simp)
    rw [← hI] at hend ⊢
    obtain ⟨u, hexec⟩ := execLoadRegs_pastEnd (s := t.clearJump) hend
    exact ⟨_, hexec, rfl, rfl⟩

/-- Up to the end of the cycle an error leaves `pc` and `blocked`, among other parts, as they were (R76, R131). -/
theorem fetchDecodeExecute_fault_keptBut {s : State} {f : Fault} (h : fetchDecodeExecute s = .fault f) :
    KeptBut [.regs, .memory] s f.after := by
  obtain ⟨-, hrun⟩ | ⟨w, -, -, hrun⟩ | ⟨w, i, -, -, hrun⟩ := fetchDecodeExecute_cases s <;> rw [hrun] at h
  · cases h; simp [Fault.after, keptBut_iff]
  · cases h; simp [Fault.after, keptBut_iff]
  · exact (exec_fault_error h).keptBut

/-- Fetch, decode and Execute fail again as they did where the state the error left still holds the word at `pc` (R132). -/
theorem fetchDecodeExecute_fault_again {s : State} {f : Fault} (h : fetchDecodeExecute s = .fault f)
    (hword : fetch f.after.clearJump.pc.toNat f.after.clearJump = fetch s.pc.toNat s) :
    ∃ g, fetchDecodeExecute f.after.clearJump = .fault g ∧ g.code = f.code ∧ g.info = f.info := by
  obtain ⟨hfetch, hrun⟩ | ⟨w, hfetch, hdecode, hrun⟩ | ⟨w, i, hfetch, hdecode, hrun⟩ := fetchDecodeExecute_cases s <;>
    rw [hrun] at h <;> rw [hfetch] at hword
  · cases h
    exact ⟨_, fetchDecodeExecute_unfetchable _ hword, rfl, rfl⟩
  · cases h
    exact ⟨_, fetchDecodeExecute_undecodable _ w hword hdecode, rfl, rfl⟩
  · rw [fetchDecodeExecute_runs _ w i hword hdecode]
    exact (exec_fault_error h).again

/-- Settles O23: the error leaves the core not blocked and `pc` at its word, and what follows the fetch fails again; the end of
the cycle keeps kind and info. -/
theorem retryFailsTheSameWay : Obligations.RetryFailsTheSameWay := by
  intro s f hb hcycle hword
  rw [transact_cycle, cycle_notBlocked s hb] at hcycle
  obtain ⟨e, hrun, rfl⟩ := (finishCycle_fault_iff _ _).mp hcycle
  rw [Fault.after_mapAfter] at hword ⊢
  have hkept := fetchDecodeExecute_fault_keptBut hrun
  have hpc : e.after.clearJump.pc = s.pc := hkept .pc (by simp)
  have hb' : e.after.clearJump.blocked = .notBlocked := (hkept .blocked (by simp)).trans hb
  obtain ⟨g, hagain, hcode, hinfo⟩ := fetchDecodeExecute_fault_again hrun (by rwa [hpc])
  refine ⟨g.mapAfter State.clearJump, ?_, by simpa using hcode, by simpa using hinfo⟩
  rw [transact_cycle, cycle_notBlocked _ hb', hagain]
  rfl

/-! ## The end of a wait (R140) -/

/-- Settles O15: while it waits, the core is left as it is by everything but a key event, `clear_dirty()` and a load, and of
these only a key release and a load write `blocked`. -/
theorem onlyReleaseOrLoadEndsAWait : Obligations.OnlyReleaseOrLoadEndsAWait := by
  intro c s t x hb h
  have hwaits (hframe : UnchangedBut [.keys, .dirty] s t) : t.blocked = .waitingKey x ∧ UnchangedBut [.keys, .dirty] s t :=
    ⟨(hframe .blocked (by simp)).trans hb, hframe⟩
  cases c with
  | keyUp k => exact .inl ⟨k, rfl⟩
  | loadProgram bs => exact .inr (.inl ⟨bs, rfl⟩)
  | loadProgramToAddress bs a => exact .inr (.inr (.inl ⟨bs, a, rfl⟩))
  | cycle =>
    rw [transact_cycle, cycle_blocked s x hb] at h
    obtain rfl := leaves_next h
    exact .inr (.inr (.inr (hwaits (UnchangedBut.refl _ _))))
  | updateTimers =>
    obtain rfl := (leaves_next h).trans (updateTimers_blocked hb)
    exact .inr (.inr (.inr (hwaits (UnchangedBut.refl _ _))))
  | keyDown k =>
    obtain rfl := leaves_next h
    exact .inr (.inr (.inr (hwaits ((setKey_keptBut k .pressed s).unchanged.mono (by simp)))))
  | clearDirty =>
    obtain rfl := leaves_next h
    exact .inr (.inr (.inr (hwaits ((setDirty_keptBut false s).unchanged.mono (by simp)))))
  | isBlocked | readPixel | readDirty | readSoundTimer =>
    obtain rfl := leaves_next h
    exact .inr (.inr (.inr (hwaits (UnchangedBut.refl _ _))))

end Sys2Proof.Machine
end

/-! # The reset family (70_reset_and_hazards.md): the program load, and a run without one -/

section
namespace Sys2Proof.Machine

/-! ## The reset core with the font (R47, R143 to R145) -/

/-- What is read of a state that shares everything but memory and `pc` with the reset core and holds the font: the reset
values, the key latch of before and R47's table (R143 to R145). -/
theorem resetCore_font_reads {s t : State} (h : UnchangedBut [.memory, .pc] (resetCore s) t)
    (hfont : ∀ b, (hb : b < font.length) → t.byteAt b = font[b]) :
    (∀ r, t.getV r = 0) ∧ t.I = 0 ∧ t.stack = [] ∧ t.DT = 0 ∧ t.ST = 0 ∧ (∀ u v, t.pixel u v = .off) ∧
    t.dirty = true ∧ t.blocked = .notBlocked ∧ t.jump = false ∧ (∀ k, t.getKey k = s.getKey k) ∧
    (∀ b, (hb : b < font.length) → t.byteAt b = font[b]) ∧ font.length = 80 :=
  ⟨fun r => (h .regs (by simp) r).trans (reset_getV r), h .index (by simp), h .stack (by simp), h .delay (by simp),
    h .sound (by simp), fun u v => (h .pixels (by simp) u v).trans (reset_pixel u v), h .dirty (by simp),
    h .blocked (by simp), h .jump (by simp), h .keys (by simp), hfont, font_length⟩

theorem installFont_pc (s : State) : (installFont (resetCore s)).pc = pcReset :=
  installFont_unchanged (resetCore s) .pc (by simp)

/-- The bytes below the font's length are the font (R47). -/
theorem installFont_byteAt_font (s : State) {b : Nat} (hb : b < font.length) :
    (installFont (resetCore s)).byteAt b = font[b] := by
  rw [installFont_byteAt, List.getD_eq_getElem _ _ hb]

/-- Past the font the memory is zeroed (R144). -/
theorem installFont_byteAt_zero (s : State) {b : Nat} (hb : 80 ≤ b) : (installFont (resetCore s)).byteAt b = 0 := by
  rw [installFont_byteAt, List.getD_eq_default _ _ (by rwa [font_length])]

/-! ## The three outcomes of a program load (R145) -/

theorem loadProgramToAddress_protected (bytes : List Byte) {a : Nat} (s : State) (h : a < unprotectedStart) :
    loadProgramToAddress bytes a s = .fault (.loadOverlapsProtected a (installFont (resetCore s))) := by
  simp [loadProgramToAddress, memWriteRestricted, h, raise]

theorem loadProgramToAddress_outOfBounds {bytes : List Byte} {a : Nat} (s : State) (hlow : unprotectedStart ≤ a)
    (hend : memSize < a + bytes.length) :
    loadProgramToAddress bytes a s = .fault (.loadOutOfBounds (max a memSize) (installFont (resetCore s))) := by
  simp [loadProgramToAddress, memWriteRestricted, Nat.not_lt.mpr hlow, hend, raise]

/-- What a load leaves that succeeds: the program over the reset core with the font, and `pc` at its address. -/
def loadedAt (bytes : List Byte) (a : Nat) (s : State) : State :=
  ((installFont (resetCore s)).storeBlock a bytes).setPc (BitVec.ofNat 16 a)

theorem loadProgramToAddress_ok {bytes : List Byte} {a : Nat} (s : State) (hlow : unprotectedStart ≤ a)
    (hend : a + bytes.length ≤ memSize) : loadProgramToAddress bytes a s = .next (loadedAt bytes a s) := by
  simp [loadProgramToAddress, memWriteRestricted_ok a bytes _ hlow hend, loadedAt]

theorem loadedAt_unchanged (bytes : List Byte) (a : Nat) (s : State) :
    UnchangedBut [.memory, .pc] (resetCore s) (loadedAt bytes a s) :=
  have hentered : UnchangedBut [.memory, .pc] (installFont (resetCore s)) (loadedAt bytes a s) :=
    KeptBut.unchanged (by simp [keptBut_iff, loadedAt])
  ((installFont_unchanged (resetCore s)).trans hentered).mono (by simp)

theorem loadedAt_pc_toNat (bytes : List Byte) {a : Nat} (s : State) (h : a ≤ memSize) :
    (loadedAt bytes a s).pc.toNat = a := by
  rw [memSize] at h
  rw [loadedAt, State.setPc_pc, BitVec.toNat_ofNat, Nat.mod_eq_of_lt (by omega)]

theorem loadedAt_byteAt_program (bytes : List Byte) (a : Nat) (s : State) {j : Nat} (h : j < bytes.length) :
    (loadedAt bytes a s).byteAt (a + j) = bytes[j] := by
  rw [loadedAt, State.setPc_byteAt, byteAt_storeBlock _ a j bytes (installFont_wf s) h]

theorem loadedAt_byteAt_outside {bytes : List Byte} {a : Nat} (s : State) {b : Nat} (h : b < a ∨ a + bytes.length ≤ b) :
    (loadedAt bytes a s).byteAt b = (installFont (resetCore s)).byteAt b := by
  rw [loadedAt, State.setPc_byteAt, byteAt_storeBlock_other _ a b bytes h]

/-- Settles O20, by the load's three outcomes: the first two leave the reset core with the font, the third also the program,
which lies past the font. -/
theorem programLoad : Obligations.ProgramLoad := by
  intro bytes a s glyphs
  have hinstalled := resetCore_font_reads ((installFont_unchanged (resetCore s)).mono (by simp))
    fun _ => installFont_byteAt_font s
  have hzero (b : Nat) (hb : 80 ≤ b) (_ : b < 4096) := installFont_byteAt_zero s hb
  refine ⟨rfl, ?_⟩
  obtain hlow | ⟨hlow, hend⟩ | ⟨hlow, hend⟩ :
      a < 0x200 ∨ (0x200 ≤ a ∧ 4096 < a + bytes.length) ∨ (0x200 ≤ a ∧ a + bytes.length ≤ 4096) := by omega
  · exact ⟨installFont (resetCore s), hinstalled,
      fun _ => ⟨loadProgramToAddress_protected bytes s hlow, installFont_pc s, hzero⟩,
      fun h => absurd h (by omega), fun h => absurd h (by omega)⟩
  · exact ⟨installFont (resetCore s), hinstalled, fun h => absurd h (by omega),
      fun _ _ => ⟨loadProgramToAddress_outOfBounds s hlow hend, installFont_pc s, hzero⟩,
      fun _ h => absurd h (by omega)⟩
  · have hloaded := resetCore_font_reads (loadedAt_unchanged bytes a s) fun b hb =>
      (loadedAt_byteAt_outside s (.inl (by rw [font_length] at hb; omega))).trans (installFont_byteAt_font s hb)
    exact ⟨loadedAt bytes a s, hloaded, fun h => absurd h (by omega), fun _ h => absurd h (by omega),
      fun _ _ => ⟨loadProgramToAddress_ok s hlow hend, loadedAt_pc_toNat bytes s (Nat.le_of_add_right_le hend),
        fun _ => loadedAt_byteAt_program bytes a s, fun b hb hb' hout =>
          (loadedAt_byteAt_outside s hout).trans (hzero b hb hb')⟩⟩

/-! ## A run without a load (R100, R142) -/

/-- A run goes on from the state that its first steps answer. -/
theorem run_add {M : Host.Core} {m : Nat} {s t : M.State} (n : Nat) (h : M.run m s = .next t) :
    M.run (m + n) s = M.run n t := by
  induction m generalizing s with
  | zero =>
    obtain rfl := Host.Outcome.next.inj h
    rw [Nat.zero_add]
  | succ m ih =>
    rw [Nat.succ_add]
    cases hstep : M.step s with
    | next u =>
      rw [run_succ M _ s u hstep] at h ⊢
      exact ih h
    | fault f => simp [Host.Core.run, hstep] at h
    | refused r => simp [Host.Core.run, hstep] at h

/-- In zeroed memory a step runs SYS 0, which moves `pc` alone (R100, R142). -/
theorem step_zeroed {a : Word} (hlow : 0x200 ≤ a.toNat) (hhigh : a.toNat + 1 < 4096) :
    step (State.reset.setPc a) = .next (State.reset.setPc (a + instrBytes)) := by
  have hfetch : fetch a.toNat (State.reset.setPc a) = some 0 := by
    rw [fetch_ok _ _ hlow hhigh]
    exact congrArg some (show wordOfBytes 0 0 = 0 by decide)
  rw [step_of_noCalls _ rfl, cycle_runs (w := 0) (i := .sys 0) rfl hfetch (by decide)]
  rfl

/-- Past the last word the fetch fails (R52). -/
theorem step_zeroed_end :
    step (State.reset.setPc 0x1000) = .fault (.invalidMemoryAccess 0x1000 (State.reset.setPc 0x1000)) := by
  rw [step_of_noCalls _ rfl, cycle_unfetchable rfl (fetch_none _ _ (by decide))]
  rfl

/-- Up to the end of memory each step of a run from reset moves `pc` to the next word (R142). -/
theorem run_zeroed {n : Nat} (hn : n ≤ 1792) :
    core.run n State.reset = .next (State.reset.setPc (BitVec.ofNat 16 (0x200 + 2 * n))) := by
  induction n with
  | zero => rfl
  | succ n ih =>
    have hpc : (BitVec.ofNat 16 (0x200 + 2 * n)).toNat = 0x200 + 2 * n := by
      rw [BitVec.toNat_ofNat]
      omega
    have hnext : BitVec.ofNat 16 (0x200 + 2 * (n + 1)) = BitVec.ofNat 16 (0x200 + 2 * n) + instrBytes :=
      BitVec.ofNat_add (0x200 + 2 * n) 2
    rw [run_add 1 (ih (by omega)), core_run_succ 0 _ _ (step_zeroed (by omega) (by omega)), hnext]
    rfl

/-- Settles O19: SYS runs from every word below 0x1000, and the fetch there fails. -/
theorem zeroedMemoryRunsToItsEnd : Obligations.ZeroedMemoryRunsToItsEnd :=
  ⟨fun _ => run_zeroed, State.reset.setPc 0x1000,
    (run_add 1 (run_zeroed (n := 1792) (le_refl _))).trans (core_run_fault 0 _ _ step_zeroed_end), rfl⟩

end Sys2Proof.Machine
end
